-- ==== Sys2Proof/Word.lean ====
section
/-! DEFINITION. The numbers the machine is made of (spec 00_scope.md R5 to R7). Only a Program byte is a bit pattern. A
cell address and a byte offset are natural numbers (`Nat`), a cell value and a computed address are signed integers
(`Int`): 10_state.md R12 lets a model hold cells so, with the range as an invariant (log entry 3), and no operation of
the machine wraps (42_sqrt_alu.md R117). -/

namespace Sys2Proof

/-- One Program byte, 0..255 (10_state.md R16). -/
abbrev Byte := BitVec 8

end Sys2Proof
end

