-- ==== Sys2Proof/Config.lean ====
section
/-! DEFINITION. The fixed field widths and the implementation parameters (spec 00_scope.md R4). The parameters are
data of a state, not constants of the model, so that every statement holds for every choice of them (log entry 1).
The spec leaves no value free (93_implementation_defined.md, end of part 1), so there is no opaque constant here. -/

namespace Sys2Proof

/-- `OPC_BITS`: width of the opcode field (R4). -/
abbrev opcBits : Nat := 7
/-- `ADDR_BITS`: width of every direct address field (R4). -/
abbrev addrBits : Nat := 14
/-- `CONST_BITS`: width of `LOAD`'s `const` field (R4). -/
abbrev constBits : Nat := 23
/-- `OFFS_BITS`: width of `READ`'s `offset` field (R4). -/
abbrev offsBits : Nat := 7

/-- The parameters an implementation fixes (R4). `PROG` and `PROG_LEN` are the state's `prog` and its length. -/
structure Params where
  /-- `MEM_CELLS`: number of cells of Memory. -/
  memCells : Nat
  /-- `CELL_BITS`: width of one cell, two's-complement signed. -/
  cellBits : Nat
  /-- `PC_BITS`: width of the program counter. -/
  pcBits : Nat
  deriving DecidableEq, Repr

/-- The constraints of R4's table on the parameters. -/
def Params.valid (p : Params) : Bool :=
  decide (1 ≤ p.memCells) && decide (24 ≤ p.cellBits) && decide (1 ≤ p.pcBits)

/-- The values the spec's test vectors use (R4, column "value / default"). -/
def Params.standard : Params := { memCells := 1024, cellBits := 32, pcBits := 32 }

/-- A cell value that `CELL_BITS` bits hold: `-2^(CELL_BITS-1) <= v < 2^(CELL_BITS-1)` (10_state.md R12). -/
def Params.holdsValue (p : Params) (v : Int) : Bool :=
  decide (-(2 ^ (p.cellBits - 1) : Int) ≤ v) && decide (v < (2 ^ (p.cellBits - 1) : Int))

/-- An address of an existing cell: `0 <= a < MEM_CELLS`, on the exact signed integer (20_memory.md R35). -/
def Params.holdsAddr (p : Params) (a : Int) : Bool :=
  decide (0 ≤ a) && decide (a < (p.memCells : Int))

end Sys2Proof
end

