-- ==== Sys2Proof/Syntax.lean ====
section
/-! DEFINITION. The instruction set: one constructor per row of spec/opcode_table.json (30_encoding.md R51, R58). -/

namespace Sys2Proof

/-- A structured instruction, operands in the order of the mnemonic (R58). Operands are natural numbers of any size:
the encoder masks a wide one to its field (R60), the decoder never gives one (R59). -/
inductive Instr where
  /-- `LOAD const, addr` (opcode 118). -/
  | load (const addr : Nat)
  /-- `READ ptr_addr, dst_addr, offset` (opcode 6). -/
  | read (ptrAddr dstAddr offset : Nat)
  /-- `WRITE src_addr, dst_addr` (opcode 44). -/
  | write (srcAddr dstAddr : Nat)
  /-- `SQRT dst_addr, ptr_addr` (opcode 57): the destination comes first. -/
  | sqrt (dstAddr ptrAddr : Nat)
  deriving DecidableEq, Repr

end Sys2Proof
end

