-- ==== Sys2Proof/WellFormed.lean ====
section
/-! DEFINITION. Which structured instructions have every operand inside its field (30_encoding.md R59: "legal range is
bounded by its encoded bit-width"). -/

namespace Sys2Proof

/-- `v` fits an unsigned field of `width` bits. -/
def fitsField (width v : Nat) : Bool := decide (v < 2 ^ width)

/-- Every operand fits its field (R51, R59). Nothing else is required: "every field value is legal to decode" (R65). -/
def Instr.wf : Instr → Bool
  | .load const addr => fitsField constBits const && fitsField addrBits addr
  | .read ptrAddr dstAddr offset =>
    fitsField addrBits ptrAddr && fitsField addrBits dstAddr && fitsField offsBits offset
  | .write srcAddr dstAddr => fitsField addrBits srcAddr && fitsField addrBits dstAddr
  | .sqrt dstAddr ptrAddr => fitsField addrBits dstAddr && fitsField addrBits ptrAddr

end Sys2Proof
end

