-- ==== Sys2Proof/Decode.lean ====
section
/-! DEFINITION. The decoder (40_sequencer_decoder.md R84 to R88), total on any byte string, and after it the encoder
(30_encoding.md R60), both written from the field table of 30_encoding.md R51. -/

namespace Sys2Proof

/-! ### Opcodes -/

/-- The four entries of the opcode map (R51); there is no fifth. -/
inductive Opcode where
  | load | read | write | sqrt
  deriving DecidableEq, Repr

/-- The 7-bit tag of an opcode (R51). -/
def Opcode.code : Opcode → Nat
  | .load => 118
  | .read => 6
  | .write => 44
  | .sqrt => 57

/-- The opcode with a given tag; the other 124 tags are illegal (R63). -/
def Opcode.ofCode (n : Nat) : Option Opcode :=
  if n = 118 then some .load
  else if n = 6 then some .read
  else if n = 44 then some .write
  else if n = 57 then some .sqrt
  else none

/-- The length in bytes of a group, a function of the opcode alone (R52, R66). -/
def Opcode.byteLength : Opcode → Nat
  | .load => 6
  | .read => 6
  | .write => 5
  | .sqrt => 5

/-- The lowest padding bit of an opcode's word: the bits from here up carry no field (R57). -/
def Opcode.paddingLo : Opcode → Nat
  | .load => 44
  | .read => 42
  | .write => 35
  | .sqrt => 35

/-! ### Bits and bytes -/

/-- `v[hi:lo]`, the unsigned integer formed by bits `hi` down to `lo` of `v` (00_scope.md R5). -/
def slice (v hi lo : Nat) : Nat := (v >>> lo) % 2 ^ (hi - lo + 1)

/-- The little-endian instruction word of a group: byte `k` holds bits `8k+7 .. 8k` (20_memory.md R36). -/
def wordOfBytes : List Byte → Nat
  | [] => 0
  | b :: bs => b.toNat + 256 * wordOfBytes bs

/-- The `n` low-order bytes of a word, least significant first (30_encoding.md R60). -/
def bytesOfWord : Nat → Nat → List Byte
  | 0, _ => []
  | n + 1, w => BitVec.ofNat 8 w :: bytesOfWord n (w / 256)

/-- Bits 6..0 of a group's first byte; bit 7 is no part of the opcode (40_sequencer_decoder.md R85). -/
def opcodeBits (b : Byte) : Nat := slice b.toNat 6 0

/-! ### The decoder -/

/-- The two faults of the decode stage (40_sequencer_decoder.md R85, R86), with the information each records. -/
inductive DecodeFault where
  /-- The opcode bits are not 118, 6, 44 or 57; carries the 7-bit value (60_exceptions.md R121). -/
  | unknownOpcode (opcode : Nat)
  /-- The group would run past the end; carries its length, or 0 when no byte exists at the offset
  (60_exceptions.md R122). -/
  | unexpectedEndOfProgram (needed : Nat)
  deriving DecidableEq, Repr

/-- The operands of an opcode, cut out of its word by shifting and masking (R87; bit ranges as in R84). -/
def Opcode.unpack (op : Opcode) (w : Nat) : Instr :=
  match op with
  | .load => .load (slice w 29 7) (slice w 43 30)
  | .read => .read (slice w 20 7) (slice w 34 21) (slice w 41 35)
  | .write => .write (slice w 20 7) (slice w 34 21)
  | .sqrt => .sqrt (slice w 20 7) (slice w 34 21)

/-- The `len` Program bytes from offset `o` (20_memory.md R33: the only bytes a fetch reads). -/
def groupBytes (prog : List Byte) (o len : Nat) : List Byte := (prog.drop o).take len

/-- `Decode(o)` over the Program `prog`, whose length is `PROG_LEN` (R84): the instruction and the length of its group,
or a decode fault. The opcode is judged before the length is known (R85), the length before any further byte is read
(R86); an offset with no byte is `UnexpectedEndOfProgram` with information 0 (R88). -/
def decode (prog : List Byte) (o : Nat) : Except DecodeFault (Instr × Nat) :=
  match prog[o]? with
  | none => .error (.unexpectedEndOfProgram 0)
  | some b0 =>
    match Opcode.ofCode (opcodeBits b0) with
    | none => .error (.unknownOpcode (opcodeBits b0))
    | some op =>
      if prog.length < o + op.byteLength then .error (.unexpectedEndOfProgram op.byteLength)
      else .ok (op.unpack (wordOfBytes (groupBytes prog o op.byteLength)), op.byteLength)

/-- Sequential decoding from offset `o`, the only way to find group boundaries (30_encoding.md R66). A group is at least
5 bytes, so as much fuel as there are bytes is enough. -/
def decodeFrom (prog : List Byte) : Nat → Nat → Except DecodeFault (List Instr)
  | 0, _ => .ok []
  | fuel + 1, o =>
    if prog.length ≤ o then .ok []
    else
      match decode prog o with
      | .error f => .error f
      | .ok (i, len) =>
        match decodeFrom prog fuel (o + len) with
        | .error f => .error f
        | .ok is => .ok (i :: is)

/-- The instruction sequence a Program stands for: its decoding from offset 0 (R66). -/
def decodeProgram (prog : List Byte) : Except DecodeFault (List Instr) :=
  decodeFrom prog prog.length 0

/-! ### The encoder: the definition of the binary format (30_encoding.md R60) -/

/-- The opcode of a structured instruction (R58). -/
def Instr.opcode : Instr → Opcode
  | .load _ _ => .load
  | .read _ _ _ => .read
  | .write _ _ => .write
  | .sqrt _ _ => .sqrt

/-- The ordered operand list of a structured instruction (R58). -/
def Instr.operands : Instr → List Nat
  | .load const addr => [const, addr]
  | .read ptrAddr dstAddr offset => [ptrAddr, dstAddr, offset]
  | .write srcAddr dstAddr => [srcAddr, dstAddr]
  | .sqrt dstAddr ptrAddr => [dstAddr, ptrAddr]

/-- The length in bytes of an instruction's group (R52). -/
def Instr.byteLength (i : Instr) : Nat := i.opcode.byteLength

/-- `v & (2^width - 1)`: the mask each operand passes through before packing (R60). -/
def maskField (width v : Nat) : Nat := v &&& (2 ^ width - 1)

/-- Every operand truncated to its declared width (R61, `mask_fields`). -/
def Instr.maskFields : Instr → Instr
  | .load const addr => .load (maskField constBits const) (maskField addrBits addr)
  | .read ptrAddr dstAddr offset =>
    .read (maskField addrBits ptrAddr) (maskField addrBits dstAddr) (maskField offsBits offset)
  | .write srcAddr dstAddr => .write (maskField addrBits srcAddr) (maskField addrBits dstAddr)
  | .sqrt dstAddr ptrAddr => .sqrt (maskField addrBits dstAddr) (maskField addrBits ptrAddr)

/-- The instruction word: the opcode with each masked operand shifted to its offset (R60, offsets of R51). -/
def encodeWord : Instr → Nat
  | .load const addr =>
    118 ||| (maskField constBits const) <<< 7 ||| (maskField addrBits addr) <<< 30
  | .read ptrAddr dstAddr offset =>
    6 ||| (maskField addrBits ptrAddr) <<< 7 ||| (maskField addrBits dstAddr) <<< 21
      ||| (maskField offsBits offset) <<< 35
  | .write srcAddr dstAddr =>
    44 ||| (maskField addrBits srcAddr) <<< 7 ||| (maskField addrBits dstAddr) <<< 21
  | .sqrt dstAddr ptrAddr =>
    57 ||| (maskField addrBits dstAddr) <<< 7 ||| (maskField addrBits ptrAddr) <<< 21

/-- The group of an instruction: the low-order bytes of its word, least significant first (R60). -/
def encode (i : Instr) : List Byte := bytesOfWord i.byteLength (encodeWord i)

/-- A Program: the groups of the instructions, in order, with nothing between them (R60, 10_state.md R16). -/
def encodeProgram : List Instr → List Byte
  | [] => []
  | i :: is => encode i ++ encodeProgram is

/-! ### Opcode-table words -/

/-- The longest instruction's bytes, for a word of which `nbits` bits are given and the rest are 0, in the order the
Program holds them. -/
def tableBytes (nbits w : Nat) : List Byte := bytesOfWord 6 (w % 2 ^ nbits)

/-- The group of a table word: as many bytes as its opcode needs, or all six where its opcode is illegal. -/
def tableGroup (nbits w : Nat) : List Byte :=
  match Opcode.ofCode (slice (w % 2 ^ nbits) 6 0) with
  | some op => (tableBytes nbits w).take op.byteLength
  | none => tableBytes nbits w

/-- The instruction the decoder reads from a word numbered as spec/opcode_table.json numbers it. -/
def decodeTableWord (nbits w : Nat) : Option Instr :=
  match decode (tableBytes nbits w) 0 with
  | .ok (i, _) => some i
  | .error _ => none

end Sys2Proof
end

