-- ==== Sys2Proof/Machine/State.lean ====
section
/-! DEFINITION. The state of the machine (10_state.md), its reset value (70_reset_and_hazards.md R150), and the ways a
model step or a host operation can stop. All of it plain data. -/

namespace Sys2Proof.Machine

/-- The run status (10_state.md R17). -/
inductive Status where
  /-- `RUN`: the sequencer will take another step. -/
  | run
  /-- `HALT`: the run ended cleanly. -/
  | halt
  /-- `FAULT`: the run was aborted by a fault. -/
  | fault
  deriving DecidableEq, Repr

/-- The fault cause (10_state.md R18). -/
inductive Cause where
  /-- `NONE`: no fault has happened. -/
  | none
  | unknownOpcode
  | unexpectedEndOfProgram
  | negativeOperand
  | addressOutOfRange
  deriving DecidableEq, Repr

/-- A fault being raised, with the information it records (60_exceptions.md R120, column `finfo`). -/
inductive Trap where
  /-- The 7-bit opcode value (R121). -/
  | unknownOpcode (opcode : Nat)
  /-- The length the group needed, 0 at or past the end (R122). -/
  | unexpectedEndOfProgram (needed : Nat)
  /-- The negative value read (R123). -/
  | negativeOperand (value : Int)
  /-- The address that failed the check, as the exact signed integer (R124). -/
  | addressOutOfRange (address : Int)
  deriving DecidableEq, Repr

/-- Memory: the cells whose value is not the reset value, as (address, value) pairs with strictly rising addresses.
A cell that is not listed reads as `Memory.unlisted` (log entry 3). -/
abbrev Memory := List (Nat × Int)

/-- What an unlisted cell reads as: 0, its reset value ("Initialized to zero", 10_state.md R12). -/
abbrev Memory.unlisted : Int := 0

/-- The canonical form from address `lo` up: addresses strictly rising, no cell listed with the unlisted value. -/
def Memory.wfFrom : Nat → Memory → Bool
  | _, [] => true
  | lo, (a, v) :: m => decide (lo ≤ a) && decide (v ≠ Memory.unlisted) && Memory.wfFrom (a + 1) m

/-- The canonical form: two memories in it that read the same everywhere are equal. -/
def Memory.wf (m : Memory) : Bool := Memory.wfFrom 0 m

/-- Every listed cell exists and its value fits a cell (10_state.md R12). -/
def Memory.bounded (p : Params) (m : Memory) : Bool :=
  m.all fun c => p.holdsAddr c.1 && p.holdsValue c.2

/-- The state of one machine (10_state.md R22, R24). `params` and `prog` are the parameters of the step relation
(00_scope.md R4), carried here because no step changes them (log entries 1 and 2). -/
structure State where
  /-- `MEM_CELLS`, `CELL_BITS`, `PC_BITS` (R4). -/
  params : Params
  /-- `PROG[0 .. PROG_LEN-1]`; `PROG_LEN` is its length (10_state.md R16). -/
  prog : List Byte
  /-- `M` (10_state.md R12). -/
  mem : Memory
  /-- `pc`, a byte offset into the Program (10_state.md R13; a natural number by R15 and D8, log entry 4). -/
  pc : Nat
  /-- `status` (10_state.md R17). -/
  status : Status
  /-- `cause` (10_state.md R18). -/
  cause : Cause
  /-- `finfo` (10_state.md R19). -/
  finfo : Int
  deriving DecidableEq, Repr

/-- Why a step of the model stops outside the machine: never. Each of the machine's four faults has an entry the spec
describes (60_exceptions.md R132), so it is a next state with `status` = `FAULT`, and the machine then stays where it
is (10_state.md R20). No constructor: nobody raises one, and every step answers a next state (log entry 5). -/
inductive Fault where
  deriving DecidableEq, Repr

/-- Why an instruction or a host operation is refused. -/
inductive Refusal where
  /-- Raised by an arm of `exec` for an instruction without a meaning; no arm does. Safe: nothing can be proved of it. -/
  | notModelled (mnemonic : String)
  /-- Raised by `launch`: parameters outside R4's constraints. Safe: "a model refuses" it. -/
  | badParameters
  /-- Raised by `launch`: a Program of `2^PC_BITS` bytes or more (93_implementation_defined.md U12). Safe. -/
  | programTooLong
  /-- Raised by `launch`: a preload outside Memory (70_reset_and_hazards.md R156, U11). Safe. -/
  | preloadAddress
  /-- Raised by `launch`: a preloaded value outside the cell range (70_reset_and_hazards.md R156, U11). Safe. -/
  | preloadValue
  /-- Raised by the host's reads while `status` = `RUN`: the host does not read then (70_reset_and_hazards.md R157). Safe. -/
  | hostDuringRun
  /-- Raised by the host's reads: a cell outside Memory, or a range whose start is above its end
  (93_implementation_defined.md U18). Safe. -/
  | dumpRange
  deriving DecidableEq, Repr

/-- The machine right after reset (70_reset_and_hazards.md R150), with the default parameters of R4 and no Program:
"Reset does not define the Program" (R152, log entry 2). -/
def State.reset : State where
  params := Params.standard
  prog := []
  mem := []
  pc := 0
  status := .run
  cause := .none
  finfo := 0

end Sys2Proof.Machine
end

