-- ==== Sys2Proof/Machine/Ops.lean ====
section
/-! DEFINITION. The operations the instructions share: the Memory cells, the bounds-checked port (20_memory.md R35,
R47), fault entry (60_exceptions.md R132), and how an execution path ends. There is no return from a fault
(60_exceptions.md R136): the only way out of `HALT` or `FAULT` is the host's reset, `State.hostReset` in
Machine/HostPort.lean. -/

namespace Sys2Proof.Machine

/-! ### Cells -/

/-- The value of cell `a`: the listed one, or the reset value (20_memory.md R43). -/
def Memory.read : Memory → Nat → Int
  | [], _ => Memory.unlisted
  | (b, v) :: m, a => if a = b then v else Memory.read m a

/-- Memory with the pair `(a, v)` in front, or without it where `v` is what an unlisted cell reads as. -/
def Memory.place (a : Nat) (v : Int) (m : Memory) : Memory :=
  if v = Memory.unlisted then m else (a, v) :: m

/-- Memory with cell `a` replaced by `v`, in canonical form where the old one is. -/
def Memory.write : Memory → Nat → Int → Memory
  | [], a, v => Memory.place a v []
  | (b, u) :: m, a, v =>
    if a < b then Memory.place a v ((b, u) :: m)
    else if a = b then Memory.place a v m
    else (b, u) :: Memory.write m a v

/-- `M[a]` of a state (00_scope.md R6). -/
def State.cell (s : State) (a : Nat) : Int := s.mem.read a

/-- The stored form of a cell value in `bits` bits, two's complement (10_state.md R12). No instruction sees it
(93_implementation_defined.md, end of part 2). -/
def storedForm (bits : Nat) (v : Int) : BitVec bits := BitVec.ofInt bits v

/-! ### Faults -/

/-- The cause a fault records (60_exceptions.md R120). -/
def Trap.cause : Trap → Cause
  | .unknownOpcode _ => .unknownOpcode
  | .unexpectedEndOfProgram _ => .unexpectedEndOfProgram
  | .negativeOperand _ => .negativeOperand
  | .addressOutOfRange _ => .addressOutOfRange

/-- The information a fault records (60_exceptions.md R127). -/
def Trap.info : Trap → Int
  | .unknownOpcode opcode => opcode
  | .unexpectedEndOfProgram needed => needed
  | .negativeOperand value => value
  | .addressOutOfRange address => address

/-- The fault a decode fault raises (60_exceptions.md R121, R122). -/
def Trap.ofDecode : DecodeFault → Trap
  | .unknownOpcode opcode => .unknownOpcode opcode
  | .unexpectedEndOfProgram needed => .unexpectedEndOfProgram needed

/-- Fault entry: `cause`, `finfo` and `status` are written, `pc` and `M` are not (60_exceptions.md R132). -/
def State.takeFault (s : State) (t : Trap) : State :=
  { s with status := .fault, cause := t.cause, finfo := t.info }

/-! ### The memory port -/

/-- `CheckedRead(a)`: the cell's value, or `AddressOutOfRange(a)`; the comparison is on the exact signed address
(20_memory.md R35). -/
def checkedRead (s : State) (a : Int) : Except Trap Int :=
  if a < 0 ∨ (s.params.memCells : Int) ≤ a then .error (.addressOutOfRange a) else .ok (s.cell a.toNat)

/-- `CheckedWrite(a, v)`: the state with the cell replaced, or `AddressOutOfRange(a)` (20_memory.md R35). -/
def checkedWrite (s : State) (a : Int) (v : Int) : Except Trap State :=
  if a < 0 ∨ (s.params.memCells : Int) ≤ a then .error (.addressOutOfRange a)
  else .ok { s with mem := s.mem.write a.toNat v }

/-- The end of an execution path begun in `s`: its state, or fault entry in `s` itself, so that a fault keeps nothing of
the instruction (40_sequencer_decoder.md R80, 60_exceptions.md R133). -/
def settle (s : State) : Except Trap State → Host.Outcome State Fault Refusal
  | .ok t => .next t
  | .error e => .next (s.takeFault e)

/-! ### Codes of the status port -/

/-- `RUN` = 0, `HALT` = 1, `FAULT` = 2 (10_state.md R17). -/
def Status.code : Status → Nat
  | .run => 0
  | .halt => 1
  | .fault => 2

/-- The numeric cause codes (10_state.md R18). -/
def Cause.code : Cause → Nat
  | .none => 0
  | .unknownOpcode => 1
  | .unexpectedEndOfProgram => 2
  | .negativeOperand => 3
  | .addressOutOfRange => 4

end Sys2Proof.Machine
end

