-- ==== Sys2Proof/Machine/Alu.lean ====
section
/-! DEFINITION. The ALU: the exact effective-address sum and the integer square root (42_sqrt_alu.md R112 to R115).
Nothing wraps, saturates or sets a flag (R117). -/

namespace Sys2Proof.Machine

/-- The exact sum of a pointer value and a displacement, never truncated before it is used (R112). -/
def effectiveAddress (pointer : Int) (offset : Nat) : Int := pointer + (offset : Int)

/-- The square root of `v` for `v < 4^k`: one bit of the root for each base-4 digit of `v`, the top digit first. -/
def isqrtDigits : Nat → Nat → Nat
  | 0, _ => 0
  | k + 1, v =>
    let r := 2 * isqrtDigits k (v / 4)
    if (r + 1) * (r + 1) ≤ v then r + 1 else r

/-- `isqrt(v)`, the integer `r` with `r*r <= v < (r+1)*(r+1)` (R113), exact at every size: `v` has
`log2 v / 2 + 1` base-4 digits (how it is computed is free, R115; log entry 10). -/
def isqrt (v : Nat) : Nat := isqrtDigits (Nat.log2 v / 2 + 1) v

/-- `isqrt` on a cell value that has passed the sign test. -/
def isqrtValue (v : Int) : Int := (isqrt v.toNat : Int)

/-- The loop of R115's digit-by-digit algorithm with `k` iterations left, so that `bit` is `4^(k-1)`. -/
def digitSqrtLoop : Nat → Nat → Nat → Nat
  | 0, _, r => r
  | k + 1, v, r =>
    if r + 4 ^ k ≤ v then digitSqrtLoop k (v - (r + 4 ^ k)) ((r >>> 1) + 4 ^ k)
    else digitSqrtLoop k v (r >>> 1)

/-- R115's algorithm for cells of `cellBits` bits: `T/2 + 1` iterations from `bit = 2^T`,
`T = 2 * floor((cellBits-2)/2)`. The machine's `SQRT` uses `isqrt`; the two agree on every cell value. -/
def digitSqrt (cellBits v : Nat) : Nat := digitSqrtLoop ((cellBits - 2) / 2 + 1) v 0

end Sys2Proof.Machine
end

