-- ==== Sys2Proof/Machine/Operands.lean ====
section
/-! DEFINITION. The four operand addressing modes (41_data_movement.md R103). Each is fixed by the instruction and the
operand's position; none changes a cell. -/

namespace Sys2Proof.Machine

/-- Immediate: the field itself, zero-extended (30_encoding.md R59). -/
def immediate (field : Nat) : Int := (field : Int)

/-- Direct: the field is the cell's address. -/
def direct (field : Nat) : Int := (field : Int)

/-- Memory-indirect: the effective address is the value of the pointer cell, whole and signed (42_sqrt_alu.md R112). -/
def indirect (s : State) (ptrField : Nat) : Except Trap Int := checkedRead s (direct ptrField)

/-- Memory-indirect with displacement: `M[ptr] + offset`, the exact sum (42_sqrt_alu.md R112). -/
def indirectDisp (s : State) (ptrField offset : Nat) : Except Trap Int := do
  let pointer ← checkedRead s (direct ptrField)
  return effectiveAddress pointer offset

/-- The field that names the cell an instruction writes: every write address is a direct field (41_data_movement.md
R106). -/
def storeField : Instr → Nat
  | .load _ addr => addr
  | .read _ dstAddr _ => dstAddr
  | .write _ dstAddr => dstAddr
  | .sqrt dstAddr _ => dstAddr

end Sys2Proof.Machine
end

