-- ==== Sys2Proof/Machine/DataMovement.lean ====
section
/-! DEFINITION. `LOAD`, `WRITE` and `READ` (41_data_movement.md R100 to R102), accesses in the order of 20_memory.md
R44. The sequencer adds the length to `pc` afterwards (40_sequencer_decoder.md R90; Machine/Sequencer.lean). -/

namespace Sys2Proof.Machine

/-- `LOAD const, addr`: `M[addr] <- const`, with no read (R100). -/
def execLoad (const addr : Nat) (s : State) : Host.Outcome State Fault Refusal :=
  settle s (checkedWrite s (direct addr) (immediate const))

/-- `WRITE src_addr, dst_addr`: `M[dst_addr] <- M[src_addr]`; the first operand is the source (R101). -/
def execWrite (srcAddr dstAddr : Nat) (s : State) : Host.Outcome State Fault Refusal :=
  settle s (do
    let v ← checkedRead s (direct srcAddr)
    checkedWrite s (direct dstAddr) v)

/-- `READ ptr_addr, dst_addr, offset`: `M[dst_addr] <- M[M[ptr_addr] + offset]` (R102). -/
def execRead (ptrAddr dstAddr offset : Nat) (s : State) : Host.Outcome State Fault Refusal :=
  settle s (do
    let ea ← indirectDisp s ptrAddr offset
    let v ← checkedRead s ea
    checkedWrite s (direct dstAddr) v)

end Sys2Proof.Machine
end

