-- ==== Sys2Proof/Machine/Flags.lean ====
section
/-! DEFINITION. The machine has no status flags (10_state.md R11). The one condition an instruction tests is the sign of
`SQRT`'s operand, which is used inside that instruction and kept nowhere. -/

namespace Sys2Proof.Machine

/-- The sign test: a value below zero raises `NegativeOperand`, zero and above pass (42_sqrt_alu.md R110, R111). -/
def signTest (v : Int) : Except Trap Int :=
  if v < 0 then .error (.negativeOperand v) else .ok v

end Sys2Proof.Machine
end

