-- ==== Sys2Proof/Machine/SquareRoot.lean ====
section
/-! DEFINITION. `SQRT`, the one computing instruction (42_sqrt_alu.md R110). -/

namespace Sys2Proof.Machine

/-- `SQRT dst_addr, ptr_addr`: `M[dst_addr] <- isqrt(M[M[ptr_addr]])`, `NegativeOperand` below zero; the sign test comes
after both reads and before the write's check (R110, 60_exceptions.md R131). -/
def execSqrt (dstAddr ptrAddr : Nat) (s : State) : Host.Outcome State Fault Refusal :=
  settle s (do
    let valueAddr ← indirect s ptrAddr
    let value ← checkedRead s valueAddr
    let operand ← signTest value
    checkedWrite s (direct dstAddr) (isqrtValue operand))

end Sys2Proof.Machine
end

