-- ==== Sys2Proof/Machine/Dispatch.lean ====
section
/-! DEFINITION. The dispatcher: one execution path per opcode, no default path (40_sequencer_decoder.md R89). -/

namespace Sys2Proof.Machine

def exec (i : Instr) (s : State) : Host.Outcome State Fault Refusal :=
  match i with
  | .load const addr => Sys2Proof.Machine.execLoad const addr s
  | .read ptrAddr dstAddr offset => Sys2Proof.Machine.execRead ptrAddr dstAddr offset s
  | .write srcAddr dstAddr => Sys2Proof.Machine.execWrite srcAddr dstAddr s
  | .sqrt dstAddr ptrAddr => Sys2Proof.Machine.execSqrt dstAddr ptrAddr s

end Sys2Proof.Machine
end

