-- ==== Sys2Proof/Machine/Sequencer.lean ====
section
/-! DEFINITION. The sequencer's own actions around the dispatcher (40_sequencer_decoder.md R80, R81, R90): the halt test,
the fetch, the advance of `pc`. Machine/Step.lean puts them together. -/

namespace Sys2Proof.Machine

/-- The run is over: `status` is not `RUN` (10_state.md R20). -/
def State.stopped (s : State) : Bool := s.status != .run

/-- The halt test: `pc >= PROG_LEN` (40_sequencer_decoder.md R81). -/
def State.atEnd (s : State) : Bool := decide (s.prog.length ≤ s.pc)

/-- `status <- HALT`, nothing else (40_sequencer_decoder.md R81). -/
def State.enterHalt (s : State) : State := { s with status := .halt }

/-- The decoder presented with `pc` (00_scope.md R8). -/
def State.fetch (s : State) : Except DecodeFault (Instr × Nat) := decode s.prog s.pc

/-- `pc <- pc + L` (40_sequencer_decoder.md R90), the only write of `pc` in the machine. -/
def State.advance (s : State) (len : Nat) : State := { s with pc := s.pc + len }

/-- What the sequencer does when an execution path begun with `status` = `RUN` has ended: `pc` is advanced by the
length the decoder returned, unless the path raised a fault, which leaves `pc` at the instruction
(40_sequencer_decoder.md R90, R91; log entry 11). -/
def retire (len : Nat) : Host.Outcome State Fault Refusal → Host.Outcome State Fault Refusal
  | .next t => .next (if t.stopped then t else t.advance len)
  | .fault r => .fault r
  | .refused r => .refused r

end Sys2Proof.Machine
end

