-- ==== Sys2Proof/Machine/Step.lean ====
section
/-! DEFINITION. One step of the machine (40_sequencer_decoder.md R80), and how a word of the opcode table is put where
the next step fetches it. -/

namespace Sys2Proof.Machine

/-- `Step()` (R80): a stopped machine stays as it is; at the end of the Program the run halts; a decode fault is entered;
otherwise the decoded instruction is executed and `pc` advanced by its length. -/
def step (s : State) : Host.Outcome State Fault Refusal :=
  if s.stopped then .next s
  else if s.atEnd then .next s.enterHalt
  else
    match s.fetch with
    | .error f => .next (s.takeFault (Trap.ofDecode f))
    | .ok (i, len) => retire len (exec i s)

/-- `s` with a Program that holds the word's group at `pc`, and running: the host's load of a Program
(70_reset_and_hazards.md R155), reduced to one instruction (log entries 2 and 12). Program bytes before and after the
group stay; where the Program is shorter than `pc`, zero bytes fill the gap. -/
def State.withFetchWord (s : State) (nbits w : Nat) : State :=
  let group := tableGroup nbits w
  { s with
    prog := s.prog.take s.pc ++ List.replicate (s.pc - s.prog.length) 0 ++ group ++ s.prog.drop (s.pc + group.length)
    status := .run }

end Sys2Proof.Machine
end

