-- ==== Sys2Proof/Machine/HostPort.lean ====
section
/-! DEFINITION. What the host may do to the machine and when (70_reset_and_hazards.md R150 to R158): reset, launch with
preloads, and reads after the run. No instruction and no step uses these. -/

namespace Sys2Proof.Machine

/-- Reset: every piece of state at its reset value (R150); the parameters and the Program are the host's and stay
(R152). DESIGN CHOICE (log entry 15): it answers on every state, one with `status` = `RUN` and steps taken included.
Whether the host may reset a core during its run the spec leaves open: R157 does not list reset among the acts it
forbids, and says only that the host has "no move". -/
def State.hostReset (s : State) : State :=
  { s with mem := [], pc := 0, status := .run, cause := .none, finfo := 0 }

/-- The reset state of a machine with these parameters and this Program (R152). -/
def State.freshWith (p : Params) (prog : List Byte) : State :=
  { State.reset with params := p, prog := prog }

/-- The host's writes of cells after reset and before the first step, in order (R156): a preload outside Memory or
outside the cell range is refused, the first bad one by name. Only `launch` uses it, on a state just reset. -/
def preload : List (Int × Int) → State → Host.Outcome State Fault Refusal
  | [], s => .next s
  | (a, v) :: cells, s =>
    if s.params.holdsAddr a = false then .refused .preloadAddress
    else if s.params.holdsValue v = false then .refused .preloadValue
    else preload cells { s with mem := s.mem.write a.toNat v }

/-- The launch state (R155, R156): the reset state of the chosen parameters and Program with the preloads made; refused
where that is no state of the machine (R4, 93_implementation_defined.md U11, U12). -/
def launch (p : Params) (prog : List Byte) (cells : List (Int × Int)) : Host.Outcome State Fault Refusal :=
  if p.valid = false then .refused .badParameters
  else if 2 ^ p.pcBits ≤ prog.length then .refused .programTooLong
  else preload cells (State.freshWith p prog)

/-- The host reads one cell after the run (R158); it reads nothing while `status` = `RUN` (R157). -/
def State.hostRead (s : State) (a : Int) : Except Refusal Int :=
  if s.status = .run then .error .hostDuringRun
  else if s.params.holdsAddr a = false then .error .dumpRange
  else .ok (s.cell a.toNat)

/-- The cells from `start` on, `count` of them, in ascending address order. -/
def State.cellsFrom (s : State) : Nat → Nat → List (Nat × Int)
  | _, 0 => []
  | start, count + 1 => (start, s.cell start) :: State.cellsFrom s (start + 1) count

/-- The read a Memory Dump makes of the inclusive range `[start, stop]` after the run (R158); a range outside Memory is
refused (93_implementation_defined.md U18; log entry 13). -/
def State.dump (s : State) (start stop : Nat) : Except Refusal (List (Nat × Int)) :=
  if s.status = .run then .error .hostDuringRun
  else if stop < start ∨ s.params.memCells ≤ stop then .error .dumpRange
  else .ok (s.cellsFrom start (stop + 1 - start))

end Sys2Proof.Machine
end

