-- ==== Sys2Proof/Safety.lean ====
section
/-! DEFINITION. What counts as a state of the machine and as a good run: the invariant that every step keeps, the
instruction boundaries of a Program, and the straight-line meaning of an instruction sequence. -/

namespace Sys2Proof.Machine

/-- `o` is an instruction boundary of the sequential decoding from offset 0 (10_state.md R15 d, 30_encoding.md R66). -/
inductive Boundary (prog : List Byte) : Nat → Prop where
  | start : Boundary prog 0
  | next {o : Nat} {i : Instr} {len : Nat} :
      Boundary prog o → decode prog o = .ok (i, len) → Boundary prog (o + len)

/-- The (width, offset) pairs of an opcode's fields, in operand order (30_encoding.md R51's table). -/
def fieldTable : Opcode → List (Nat × Nat)
  | .load => [(23, 7), (14, 30)]
  | .read => [(14, 7), (14, 21), (7, 35)]
  | .write => [(14, 7), (14, 21)]
  | .sqrt => [(14, 7), (14, 21)]

/-- A group of format `CA`, byte by byte as 30_encoding.md R53 writes it, with its padding bits: `hi || lo` with an `n`-bit
`lo` is `hi * 2^n + lo`. -/
def groupCA (const addr padding : Nat) : List Byte :=
  [BitVec.ofNat 8 (slice const 0 0 * 128 + 0b1110110), BitVec.ofNat 8 (slice const 8 1),
    BitVec.ofNat 8 (slice const 16 9), BitVec.ofNat 8 (slice addr 1 0 * 64 + slice const 22 17),
    BitVec.ofNat 8 (slice addr 9 2), BitVec.ofNat 8 (slice padding 3 0 * 16 + slice addr 13 10)]

/-- A group of format `AAO`, byte by byte as R54 writes it. -/
def groupAAO (ptrAddr dstAddr offset padding : Nat) : List Byte :=
  [BitVec.ofNat 8 (slice ptrAddr 0 0 * 128 + 0b0000110), BitVec.ofNat 8 (slice ptrAddr 8 1),
    BitVec.ofNat 8 (slice dstAddr 2 0 * 32 + slice ptrAddr 13 9), BitVec.ofNat 8 (slice dstAddr 10 3),
    BitVec.ofNat 8 (slice offset 4 0 * 8 + slice dstAddr 13 11),
    BitVec.ofNat 8 (slice padding 5 0 * 4 + slice offset 6 5)]

/-- A group of format `AA` with the given opcode, low and high address field, byte by byte as R55 and R56 write it. -/
def groupAA (code low high padding : Nat) : List Byte :=
  [BitVec.ofNat 8 (slice low 0 0 * 128 + code), BitVec.ofNat 8 (slice low 8 1),
    BitVec.ofNat 8 (slice high 2 0 * 32 + slice low 13 9), BitVec.ofNat 8 (slice high 10 3),
    BitVec.ofNat 8 (slice padding 4 0 * 8 + slice high 13 11)]

/-- `n` steps of the machine from `s`. -/
def runSteps (n : Nat) (s : State) : Host.Outcome State Fault Refusal := Host.Core.run Sys2Proof.core n s

/-- The check of one access: nothing where the cell exists, `AddressOutOfRange` where it does not (20_memory.md R35). -/
def addressCheck (s : State) (a : Int) : Option Trap :=
  if s.params.holdsAddr a then none else some (.addressOutOfRange a)

/-- The check of `SQRT`'s operand (42_sqrt_alu.md R111). -/
def signCheck (v : Int) : Option Trap := if v < 0 then some (.negativeOperand v) else none

/-- The checks an instruction makes, in the order of 20_memory.md R44's table (60_exceptions.md R131). A later entry
means something only where the earlier ones pass. -/
def accessChecks (s : State) : Instr → List (Option Trap)
  | .load _ addr => [addressCheck s addr]
  | .write srcAddr dstAddr => [addressCheck s srcAddr, addressCheck s dstAddr]
  | .read ptrAddr dstAddr offset =>
    [addressCheck s ptrAddr, addressCheck s (s.cell ptrAddr + offset), addressCheck s dstAddr]
  | .sqrt dstAddr ptrAddr =>
    [addressCheck s ptrAddr, addressCheck s (s.cell ptrAddr), signCheck (s.cell (s.cell ptrAddr).toNat),
      addressCheck s dstAddr]

/-- The first check that fails, if one does. -/
def firstFailure (s : State) (i : Instr) : Option Trap := (accessChecks s i).findSome? id

/-- `finfo` says what 60_exceptions.md R120 and R127 say it does for the recorded cause, with `pc` still at the
instruction that faulted. -/
def State.faultRecord (s : State) : Prop :=
  match s.cause with
  | .none => s.finfo = 0
  | .unknownOpcode =>
    ∃ b, s.prog[s.pc]? = some b ∧ Opcode.ofCode (opcodeBits b) = none ∧ s.finfo = (opcodeBits b : Int)
  | .unexpectedEndOfProgram =>
    ∃ b op, s.prog[s.pc]? = some b ∧ Opcode.ofCode (opcodeBits b) = some op ∧
      s.finfo = (op.byteLength : Int) ∧ s.prog.length < s.pc + op.byteLength
  | .negativeOperand =>
    ∃ dstAddr ptrAddr v, decode s.prog s.pc = .ok (.sqrt dstAddr ptrAddr, 5) ∧
      firstFailure s (.sqrt dstAddr ptrAddr) = some (.negativeOperand v) ∧ v < 0 ∧ s.finfo = v
  | .addressOutOfRange =>
    ∃ i len a, decode s.prog s.pc = .ok (i, len) ∧ firstFailure s i = some (.addressOutOfRange a) ∧
      s.params.holdsAddr a = false ∧ s.finfo = a

/-- The state invariant: the parameters' constraints (00_scope.md R4), Memory in canonical form with every cell in range
(10_state.md R12), `pc` inside the Program (R15 a), and `status` in step with `cause` and `pc` (R18,
40_sequencer_decoder.md R83). -/
structure State.Inv (s : State) : Prop where
  params_valid : s.params.valid = true
  prog_fits : s.prog.length < 2 ^ s.params.pcBits
  mem_wf : s.mem.wf = true
  mem_bounded : s.mem.bounded s.params = true
  pc_le : s.pc ≤ s.prog.length
  halt_at_end : s.status = .halt → s.pc = s.prog.length
  cause_iff_fault : s.cause ≠ .none ↔ s.status = .fault

/-- Every cell holds a value that an instruction could have put there: 0 .. 2^23-1 (42_sqrt_alu.md R116). -/
def State.CellsMade (s : State) : Prop := ∀ a, 0 ≤ s.cell a ∧ s.cell a ≤ 8388607

/-- The run ended cleanly (40_sequencer_decoder.md R83). `FAULT` is never the end of a successful run
(60_exceptions.md R136). -/
def State.completed (s : State) : Bool := s.status == .halt

/-- The meaning of an instruction sequence without a Program: each instruction executed once, in order, `pc` advanced
over it, the first fault ending it; `HALT` after the last (40_sequencer_decoder.md R82, R83, R92). -/
def straightLine : List Instr → State → State
  | [], s => s.enterHalt
  | i :: is, s =>
    match exec i s with
    | .next t => if t.stopped then t else straightLine is (t.advance i.byteLength)
    | .fault _ => s
    | .refused _ => s

end Sys2Proof.Machine
end

