-- ==== Sys2Proof/Certificates/Slice0/Obligations.lean ====
section
/-! DEFINITION. The statements for the provers, one numbered rule of spec/ (or one section) each. Where a statement rests
on a choice of the model's own, its docstring says so and names the log entry. -/

open Sys2Proof Sys2Proof.Machine

/-! ### Reset, launch and the host's reads -/

/-- 70_reset_and_hazards.md R150: reset puts every piece of state at its reset value, the whole Memory included. The
Program and the parameters are the host's and stay (R152). It says what a reset leaves, whatever state it is done in; that
the host may do one while `status` = `RUN` is the model's choice (log entry 15), and no clause here says that it may. -/
def Obligations.ResetGivesEveryResetValue : Prop :=
  (∀ s : State,
    (∀ a, s.hostReset.cell a = 0) ∧ s.hostReset.pc = 0 ∧ s.hostReset.status = .run ∧ s.hostReset.cause = .none ∧
      s.hostReset.finfo = 0 ∧ s.hostReset.params = s.params ∧ s.hostReset.prog = s.prog) ∧
  (∀ a, State.reset.cell a = 0) ∧ State.reset.pc = 0 ∧ State.reset.status = .run ∧ State.reset.cause = .none ∧
    State.reset.finfo = 0

/-- The reset state meets the invariant, stands at an instruction boundary and has an empty fault record. That its
parameters are R4's defaults and its Program is empty is the model's choice (log entries 1 and 2). -/
def Obligations.ResetStateMeetsInvariant : Prop :=
  State.reset.Inv ∧ Boundary State.reset.prog State.reset.pc ∧ State.reset.faultRecord

/-- 70_reset_and_hazards.md R155 and R156 with 00_scope.md R4: a launch succeeds exactly when the parameters are legal, the
Program fits `PC_BITS`, and every preload names an existing cell and a value in range; the launch state is then the reset
state with those cells replaced. That a later preload of the same cell wins is the model's choice (log entry 8). -/
def Obligations.LaunchSucceedsExactlyOnLegalStates : Prop :=
  ∀ (p : Params) (prog : List Byte) (cells : List (Int × Int)),
    ((∃ s, launch p prog cells = .next s) ↔
      p.valid = true ∧ prog.length < 2 ^ p.pcBits ∧ ∀ c ∈ cells, p.holdsAddr c.1 = true ∧ p.holdsValue c.2 = true) ∧
    ∀ s, launch p prog cells = .next s →
      s = { State.freshWith p prog with mem := s.mem } ∧
        ∀ a : Nat, s.cell a = ((cells.reverse.find? fun c => c.1 == (a : Int)).map Prod.snd).getD 0

/-- Every launch state meets the invariant, stands at an instruction boundary, runs, and has an empty fault record. -/
def Obligations.LaunchStateMeetsInvariant : Prop :=
  ∀ (p : Params) (prog : List Byte) (cells : List (Int × Int)) (s : State),
    launch p prog cells = .next s → s.Inv ∧ Boundary s.prog s.pc ∧ s.faultRecord ∧ s.status = .run

/-- 70_reset_and_hazards.md R157 and R158: during the run the host reads nothing; after it, a read of an existing cell
gives its value, and a dump of an inclusive range inside Memory gives every cell's value in ascending address order.
That a range outside Memory is refused is not stated here. -/
def Obligations.DumpListsRangeAscendingAfterTheRun : Prop :=
  ∀ (s : State) (start stop : Nat),
    (s.status = .run → (∀ a, s.hostRead a = .error .hostDuringRun) ∧ s.dump start stop = .error .hostDuringRun) ∧
    (s.status ≠ .run → start ≤ stop → stop < s.params.memCells →
      s.hostRead stop = .ok (s.cell stop) ∧
      ∃ cells, s.dump start stop = .ok cells ∧ cells.length = stop + 1 - start ∧
        ∀ k, k < cells.length → cells[k]? = some (start + k, s.cell (start + k)))

/-! ### Encoding -/

/-- Groups written out byte by byte in 95_test_vectors.md (ENC1 to ENC4, DEC13) decode to the instruction they stand
for. -/
def Obligations.WrittenOutGroupsDecode : Prop :=
  decode [0x76, 0x05, 0x01, 0x80, 0x11, 0x00] 0 = .ok (.load 522 70, 6) ∧
  decode [0x86, 0xF9, 0x60, 0x60, 0xA8, 0x01] 0 = .ok (.read 499 771 53, 6) ∧
  decode [0xAC, 0x72, 0x00, 0x2A, 0x00] 0 = .ok (.write 229 336, 5) ∧
  decode [0xB9, 0x93, 0xE1, 0x6B, 0x00] 0 = .ok (.sqrt 807 863, 5) ∧
  decode [0x76, 0x32, 0x00, 0x40, 0x01, 0x00, 0xF6, 0x01, 0x00, 0x80, 0x01, 0x00] 6 = .ok (.load 3 6, 6)

/-- 30_encoding.md R53 to R56: the bytes of each format, field slice by field slice. The encoder emits them with padding 0,
for operands of any size (only the bits inside a field are used), and the decoder reads them back whatever the padding
bits are. `WRITE` has its source in the low field, `SQRT` its destination. -/
def Obligations.GroupsFollowTheFormatsByteByByte : Prop :=
  (∀ a b c : Nat,
    encode (.load a b) = groupCA a b 0 ∧ encode (.read a b c) = groupAAO a b c 0 ∧
    encode (.write a b) = groupAA 0b0101100 a b 0 ∧ encode (.sqrt a b) = groupAA 0b0111001 a b 0) ∧
  (∀ const addr padding : Nat, const < 2 ^ 23 → addr < 2 ^ 14 →
    decode (groupCA const addr padding) 0 = .ok (.load const addr, 6)) ∧
  (∀ a b offset padding : Nat, a < 2 ^ 14 → b < 2 ^ 14 → offset < 2 ^ 7 →
    decode (groupAAO a b offset padding) 0 = .ok (.read a b offset, 6) ∧
    decode (groupAA 0b0101100 a b padding) 0 = .ok (.write a b, 5) ∧
    decode (groupAA 0b0111001 a b padding) 0 = .ok (.sqrt a b, 5))

/-- 30_encoding.md R61: decoding an encoded instruction, wherever it stands in a Program, gives back its opcode, its
operands masked to their fields, and its length; and encoding what was decoded from a group gives the group back exactly
when the group's padding bits are 0. -/
def Obligations.DecodeOfEncodeMasksOperands : Prop :=
  (∀ (i : Instr) (before after : List Byte),
    decode (before ++ encode i ++ after) before.length = .ok (i.maskFields, i.byteLength)) ∧
  (∀ i : Instr, i.maskFields.opcode = i.opcode ∧
    i.maskFields.operands = List.zipWith (fun x field => x % 2 ^ field.1) i.operands (fieldTable i.opcode)) ∧
  (∀ (g : List Byte) (i : Instr), decode g 0 = .ok (i, g.length) →
    (encode i = g ↔ wordOfBytes g < 2 ^ i.opcode.paddingLo))

/-- 30_encoding.md R64: a group with a legal opcode decodes, to the same instruction and length whatever its padding
bits hold. -/
def Obligations.PaddingBitsAreIgnored : Prop :=
  ∀ (op : Opcode) (g g' : List Byte),
    g.length = op.byteLength → g'.length = op.byteLength → wordOfBytes g % 128 = op.code →
    wordOfBytes g' % 2 ^ op.paddingLo = wordOfBytes g % 2 ^ op.paddingLo →
    ∃ i, i.opcode = op ∧ decode g 0 = .ok (i, op.byteLength) ∧ decode g' 0 = .ok (i, op.byteLength)

/-- 40_sequencer_decoder.md R87: each operand of a decoded instruction is the unsigned integer whose bits are the bits of
its field, bit `off + j` of the word being bit `(off + j) mod 8` of byte `(off + j) / 8` of the group. -/
def Obligations.OperandsAreTheFieldBits : Prop :=
  ∀ (prog : List Byte) (o : Nat) (i : Instr) (len : Nat), decode prog o = .ok (i, len) →
    (∃ b, prog[o]? = some b ∧ b.toNat % 128 = i.opcode.code) ∧
    i.operands.length = (fieldTable i.opcode).length ∧
    ∀ k x width off : Nat, i.operands[k]? = some x → (fieldTable i.opcode)[k]? = some (width, off) →
      x < 2 ^ width ∧
      ∀ j, j < width → ∃ b, prog[o + (off + j) / 8]? = some b ∧ x.testBit j = b.getLsbD ((off + j) % 8)

/-- 30_encoding.md R63 and 40_sequencer_decoder.md R85: of the 128 opcode values 124 are illegal, and decoding raises
`UnknownOpcode` exactly where the low 7 bits of the one byte at the offset are none of the four, at any offset and
whatever follows. -/
def Obligations.UnknownOpcodeExactlyOnIllegalBits : Prop :=
  (∀ (prog : List Byte) (o k : Nat),
    decode prog o = .error (.unknownOpcode k) ↔
      ∃ b, prog[o]? = some b ∧ k = b.toNat % 128 ∧ k ≠ 118 ∧ k ≠ 6 ∧ k ≠ 44 ∧ k ≠ 57) ∧
  ((List.range 128).filter fun k => (Opcode.ofCode k).isNone).length = 124

/-- 40_sequencer_decoder.md R86 and R88: `UnexpectedEndOfProgram` is raised exactly where the opcode is legal and its group
would extend past the end, with the length it needs, or where no byte exists at the offset, with 0. -/
def Obligations.UnexpectedEndExactlyOnCutGroups : Prop :=
  ∀ (prog : List Byte) (o k : Nat),
    decode prog o = .error (.unexpectedEndOfProgram k) ↔
      (prog.length ≤ o ∧ k = 0) ∨
      (∃ b, prog[o]? = some b ∧ (b.toNat % 128 = 118 ∨ b.toNat % 128 = 6) ∧ prog.length < o + 6 ∧ k = 6) ∨
      (∃ b, prog[o]? = some b ∧ (b.toNat % 128 = 44 ∨ b.toNat % 128 = 57) ∧ prog.length < o + 5 ∧ k = 5)

/-- 20_memory.md R33: a decode depends on the bytes of its own group and on no other byte of the Program. -/
def Obligations.DecodeReadsOnlyItsGroup : Prop :=
  ∀ (prog prog' : List Byte) (o : Nat) (i : Instr) (len : Nat), decode prog o = .ok (i, len) →
    (∀ k, k < len → prog'[o + k]? = prog[o + k]?) → decode prog' o = .ok (i, len)

/-- 30_encoding.md R59, R52: whatever decodes is well-formed, and its length is 6 for `LOAD` and `READ`, 5 for `WRITE` and
`SQRT`. -/
def Obligations.DecodedInstructionIsWellFormed : Prop :=
  ∀ (prog : List Byte) (o : Nat) (i : Instr) (len : Nat), decode prog o = .ok (i, len) →
    i.wf = true ∧ o + len ≤ prog.length ∧
      len = match i with
        | .load _ _ => 6
        | .read _ _ _ => 6
        | .write _ _ => 5
        | .sqrt _ _ => 5

/-- 30_encoding.md R60, R72: bits of an operand above its field are dropped and spill into no other field. -/
def Obligations.EncoderDropsBitsAboveTheField : Prop :=
  ∀ a b c m n l : Nat,
    encode (.load (a + m * 2 ^ 23) (b + n * 2 ^ 14)) = encode (.load a b) ∧
    encode (.read (a + m * 2 ^ 14) (b + n * 2 ^ 14) (c + l * 2 ^ 7)) = encode (.read a b c) ∧
    encode (.write (a + m * 2 ^ 14) (b + n * 2 ^ 14)) = encode (.write a b) ∧
    encode (.sqrt (a + m * 2 ^ 14) (b + n * 2 ^ 14)) = encode (.sqrt a b)

/-- 30_encoding.md R60, R61, R66: the sequential decoding of a Program from offset 0 finds exactly the instructions it
was encoded from, in order, each with its operands masked. -/
def Obligations.SequentialDecodingRecoversTheProgram : Prop :=
  ∀ is : List Instr, decodeProgram (encodeProgram is) = .ok (is.map Instr.maskFields)

/-! ### The sequencer -/

/-- 40_sequencer_decoder.md R80, case by case: a stopped machine stays; at the end the run halts; a decode fault is
entered with its information; a decoded instruction is executed, and `pc` is advanced by the length the decoder returned
unless it faulted. -/
def Obligations.StepFollowsTheSequencer : Prop :=
  ∀ s : State,
    (s.status ≠ .run → step s = .next s) ∧
    (s.status = .run → s.prog.length ≤ s.pc → step s = .next { s with status := .halt }) ∧
    (s.status = .run → s.pc < s.prog.length →
      (∀ k, decode s.prog s.pc = .error (.unknownOpcode k) →
        step s = .next { s with status := .fault, cause := .unknownOpcode, finfo := (k : Int) }) ∧
      (∀ k, decode s.prog s.pc = .error (.unexpectedEndOfProgram k) →
        step s = .next { s with status := .fault, cause := .unexpectedEndOfProgram, finfo := (k : Int) }) ∧
      (∀ i len, decode s.prog s.pc = .ok (i, len) →
        ∃ t, exec i s = .next t ∧
          (t.status = .run → step s = .next { t with pc := t.pc + len }) ∧
          (t.status ≠ .run → t.status = .fault ∧ step s = .next t)))

/-- A step runs the decoded instruction: where the bytes at `pc` are the group of a well-formed instruction, the step is
its meaning at that state, with `pc` moved past the group when it completes and left at it when it faults. -/
def Obligations.GroupAtPcIsExecuted : Prop :=
  ∀ (s t : State) (i : Instr), s.status = .run → i.wf = true →
    (s.prog.drop s.pc).take i.byteLength = encode i → exec i s = .next t →
    step s = .next (if t.status = .run then { t with pc := s.pc + i.byteLength } else t)

/-- 40_sequencer_decoder.md R81: with `status` = `RUN` the step is the halt transition, which changes `status` alone,
exactly when `pc >= PROG_LEN`; in a state that meets the invariant that is `pc = PROG_LEN`. -/
def Obligations.HaltTransitionExactlyAtTheEnd : Prop :=
  ∀ s : State, s.status = .run →
    (step s = .next { s with status := .halt } ↔ s.prog.length ≤ s.pc) ∧
    (s.Inv → (step s = .next { s with status := .halt } ↔ s.pc = s.prog.length))

/-- 10_state.md R20: every step answers a next state; `status` changes only from `RUN` to `HALT` or `FAULT`; and a stopped
machine keeps its whole state through any number of steps. -/
def Obligations.StoppedMachineIsFrozen : Prop :=
  (∀ s : State, ∃ t, step s = .next t ∧ (t.status ≠ s.status → s.status = .run ∧ (t.status = .halt ∨ t.status = .fault))) ∧
  ∀ (s : State) (n : Nat), s.status ≠ .run → runSteps n s = .next s

/-- 40_sequencer_decoder.md R90: in a step from `RUN`, `pc` grows by the decoded instruction's length (6 after `LOAD` or
`READ`, 5 after `WRITE` or `SQRT`) when the machine goes on running, and stays where it is when the step ends the run. -/
def Obligations.PcGrowsOnlyByTheGroupLength : Prop :=
  ∀ s t : State, s.status = .run → step s = .next t →
    (t.status = .run → ∃ i len, decode s.prog s.pc = .ok (i, len) ∧ t.pc = s.pc + len ∧
      len = match i with
        | .load _ _ => 6
        | .read _ _ _ => 6
        | .write _ _ => 5
        | .sqrt _ _ => 5) ∧
    (t.status ≠ .run → t.pc = s.pc)

/-- 40_sequencer_decoder.md R91: when a step faults, in decode or in execution, `pc` is not advanced and no cell, no
Program byte and no parameter changes; only `status`, `cause` and `finfo` do, and a cause is recorded. -/
def Obligations.FaultKeepsNothingOfTheInstruction : Prop :=
  ∀ s t : State, s.status = .run → step s = .next t → t.status = .fault →
    t = { s with status := .fault, cause := t.cause, finfo := t.finfo } ∧ t.cause ≠ .none

/-! ### The instructions -/

/-- 41_data_movement.md R100, `LOAD const, addr`. In an existing cell the constant is stored whatever the cell held, and
nothing else changes; past the last cell `AddressOutOfRange(addr)` is entered with `M` unchanged; the fields are bits
29..7 and 43..30 of a 6-byte group with opcode 118, and `pc` grows by 6. -/
def Obligations.LoadStoresItsConstant : Prop :=
  ∀ (const addr : Nat) (s : State), s.mem.wf = true →
    (addr < s.params.memCells →
      ∃ t, exec (.load const addr) s = .next t ∧ t = { s with mem := t.mem } ∧
        t.cell addr = const ∧ (∀ b, b ≠ addr → t.cell b = s.cell b) ∧
        (s.status = .run → decode s.prog s.pc = .ok (.load const addr, 6) → step s = .next { t with pc := s.pc + 6 })) ∧
    (s.params.memCells ≤ addr →
      exec (.load const addr) s =
        .next { s with status := .fault, cause := .addressOutOfRange, finfo := (addr : Int) }) ∧
    (∀ w, w < 2 ^ 48 → w % 128 = 118 →
      decode (bytesOfWord 6 w) 0 = .ok (.load (slice w 29 7) (slice w 43 30), 6))

/-- 41_data_movement.md R101, `WRITE src_addr, dst_addr`. The whole source cell is copied, sign included, and nothing else
changes; the source is checked before the destination; the fields are bits 20..7 and 34..21 of a 5-byte group with opcode
44, and `pc` grows by 5. -/
def Obligations.WriteCopiesOneCell : Prop :=
  ∀ (srcAddr dstAddr : Nat) (s : State), s.mem.wf = true →
    (srcAddr < s.params.memCells → dstAddr < s.params.memCells →
      ∃ t, exec (.write srcAddr dstAddr) s = .next t ∧ t = { s with mem := t.mem } ∧
        t.cell dstAddr = s.cell srcAddr ∧ (∀ b, b ≠ dstAddr → t.cell b = s.cell b) ∧
        (s.status = .run → decode s.prog s.pc = .ok (.write srcAddr dstAddr, 5) →
          step s = .next { t with pc := s.pc + 5 })) ∧
    (s.params.memCells ≤ srcAddr →
      exec (.write srcAddr dstAddr) s =
        .next { s with status := .fault, cause := .addressOutOfRange, finfo := (srcAddr : Int) }) ∧
    (srcAddr < s.params.memCells → s.params.memCells ≤ dstAddr →
      exec (.write srcAddr dstAddr) s =
        .next { s with status := .fault, cause := .addressOutOfRange, finfo := (dstAddr : Int) }) ∧
    (∀ w, w < 2 ^ 40 → w % 128 = 44 →
      decode (bytesOfWord 5 w) 0 = .ok (.write (slice w 20 7) (slice w 34 21), 5))

/-- 41_data_movement.md R102, `READ ptr_addr, dst_addr, offset`. The cell at the exact sum of the pointer cell and the
offset is copied, and nothing else changes; a bad pointer cell, then a bad sum (negative or past the end, reported as it
is), then a bad destination faults; the fields are bits 20..7, 34..21 and 41..35 of a 6-byte group with opcode 6, and
`pc` grows by 6. -/
def Obligations.ReadLoadsThroughPointerAndOffset : Prop :=
  ∀ (ptrAddr dstAddr offset : Nat) (s : State), s.mem.wf = true →
    (ptrAddr < s.params.memCells → 0 ≤ s.cell ptrAddr + offset →
      s.cell ptrAddr + offset < (s.params.memCells : Int) → dstAddr < s.params.memCells →
      ∃ t, exec (.read ptrAddr dstAddr offset) s = .next t ∧ t = { s with mem := t.mem } ∧
        (∀ ea : Nat, (ea : Int) = s.cell ptrAddr + offset → t.cell dstAddr = s.cell ea) ∧
        (∀ b, b ≠ dstAddr → t.cell b = s.cell b) ∧
        (s.status = .run → decode s.prog s.pc = .ok (.read ptrAddr dstAddr offset, 6) →
          step s = .next { t with pc := s.pc + 6 })) ∧
    (s.params.memCells ≤ ptrAddr →
      exec (.read ptrAddr dstAddr offset) s =
        .next { s with status := .fault, cause := .addressOutOfRange, finfo := (ptrAddr : Int) }) ∧
    (ptrAddr < s.params.memCells →
      s.cell ptrAddr + offset < 0 ∨ (s.params.memCells : Int) ≤ s.cell ptrAddr + offset →
      exec (.read ptrAddr dstAddr offset) s =
        .next { s with status := .fault, cause := .addressOutOfRange, finfo := s.cell ptrAddr + offset }) ∧
    (ptrAddr < s.params.memCells → 0 ≤ s.cell ptrAddr + offset →
      s.cell ptrAddr + offset < (s.params.memCells : Int) → s.params.memCells ≤ dstAddr →
      exec (.read ptrAddr dstAddr offset) s =
        .next { s with status := .fault, cause := .addressOutOfRange, finfo := (dstAddr : Int) }) ∧
    (∀ w, w < 2 ^ 48 → w % 128 = 6 →
      decode (bytesOfWord 6 w) 0 = .ok (.read (slice w 20 7) (slice w 34 21) (slice w 41 35), 6))

/-- 42_sqrt_alu.md R110, `SQRT dst_addr, ptr_addr`. The integer square root of the value reached through the pointer cell is
stored, and nothing else changes; a bad pointer cell, then a bad value address, then a negative value, then a bad
destination faults; the fields are bits 20..7 and 34..21 of a 5-byte group with opcode 57, and `pc` grows by 5. -/
def Obligations.SqrtStoresTheFloorRoot : Prop :=
  ∀ (dstAddr ptrAddr : Nat) (s : State), s.mem.wf = true →
    (∀ valueAddr : Nat, ptrAddr < s.params.memCells → (valueAddr : Int) = s.cell ptrAddr →
      valueAddr < s.params.memCells → 0 ≤ s.cell valueAddr → dstAddr < s.params.memCells →
      ∃ t, exec (.sqrt dstAddr ptrAddr) s = .next t ∧ t = { s with mem := t.mem } ∧
        (0 ≤ t.cell dstAddr ∧ t.cell dstAddr * t.cell dstAddr ≤ s.cell valueAddr ∧
          s.cell valueAddr < (t.cell dstAddr + 1) * (t.cell dstAddr + 1)) ∧
        (∀ b, b ≠ dstAddr → t.cell b = s.cell b) ∧
        (s.status = .run → decode s.prog s.pc = .ok (.sqrt dstAddr ptrAddr, 5) →
          step s = .next { t with pc := s.pc + 5 })) ∧
    (s.params.memCells ≤ ptrAddr →
      exec (.sqrt dstAddr ptrAddr) s =
        .next { s with status := .fault, cause := .addressOutOfRange, finfo := (ptrAddr : Int) }) ∧
    (ptrAddr < s.params.memCells → s.cell ptrAddr < 0 ∨ (s.params.memCells : Int) ≤ s.cell ptrAddr →
      exec (.sqrt dstAddr ptrAddr) s =
        .next { s with status := .fault, cause := .addressOutOfRange, finfo := s.cell ptrAddr }) ∧
    (∀ valueAddr : Nat, ptrAddr < s.params.memCells → (valueAddr : Int) = s.cell ptrAddr →
      valueAddr < s.params.memCells → s.cell valueAddr < 0 →
      exec (.sqrt dstAddr ptrAddr) s =
        .next { s with status := .fault, cause := .negativeOperand, finfo := s.cell valueAddr }) ∧
    (∀ valueAddr : Nat, ptrAddr < s.params.memCells → (valueAddr : Int) = s.cell ptrAddr →
      valueAddr < s.params.memCells → 0 ≤ s.cell valueAddr → s.params.memCells ≤ dstAddr →
      exec (.sqrt dstAddr ptrAddr) s =
        .next { s with status := .fault, cause := .addressOutOfRange, finfo := (dstAddr : Int) }) ∧
    (∀ w, w < 2 ^ 40 → w % 128 = 57 →
      decode (bytesOfWord 5 w) 0 = .ok (.sqrt (slice w 20 7) (slice w 34 21), 5))

/-- The frame of `LOAD`, `READ`, `WRITE` and `SQRT`: the parameters, the Program and `pc` are unchanged; every cell but the
one the instruction's direct destination field names is unchanged; and either the status and the fault record are
unchanged too, or a fault was entered and all of Memory is unchanged. -/
def Obligations.EveryInstructionKeepsItsFrame : Prop :=
  ∀ (i : Instr) (s t : State), s.mem.wf = true → exec i s = .next t →
    t.params = s.params ∧ t.prog = s.prog ∧ t.pc = s.pc ∧
    (∀ a, storeField i = a → ∀ b, b ≠ a → t.cell b = s.cell b) ∧
    ((t.status = s.status ∧ t.cause = s.cause ∧ t.finfo = s.finfo ∧ t.mem.wf = true) ∨
      (t.status = .fault ∧ t.mem = s.mem))

/-- 41_data_movement.md R105: where source and destination are the same cell, the reads see the values from before the
instruction. The cases are those of the instructions' corner cases; `WRITE a, a` and `READ` onto its own effective
address leave the whole state as it was. -/
def Obligations.OverlappingOperandsReadBeforeWrite : Prop :=
  ∀ s : State, s.mem.wf = true →
    (∀ a, a < s.params.memCells → exec (.write a a) s = .next s) ∧
    (∀ p o ea : Nat, p < s.params.memCells → (ea : Int) = s.cell p + o → ea < s.params.memCells →
      (∃ t, exec (.read p p o) s = .next t ∧ t.cell p = s.cell ea) ∧ exec (.read p ea o) s = .next s) ∧
    (∀ p d o : Nat, p < s.params.memCells → d < s.params.memCells → s.cell p + o = p →
      ∃ t, exec (.read p d o) s = .next t ∧ t.cell d = s.cell p) ∧
    (∀ p va : Nat, p < s.params.memCells → (va : Int) = s.cell p → va < s.params.memCells → 0 ≤ s.cell va →
      (∃ t, exec (.sqrt p p) s = .next t ∧ t.cell p = isqrt (s.cell va).toNat) ∧
      (∃ t, exec (.sqrt va p) s = .next t ∧ t.cell va = isqrt (s.cell va).toNat))

/-- 60_exceptions.md R131: an instruction enters the fault of its first failing check, in the order of 20_memory.md R44 with
`SQRT`'s sign test before its write; and where no check fails it completes, with `status`, `cause` and `finfo` as they
were. -/
def Obligations.FirstFailingCheckIsReported : Prop :=
  ∀ (i : Instr) (s : State),
    (∀ a, firstFailure s i = some (.addressOutOfRange a) →
      exec i s = .next { s with status := .fault, cause := .addressOutOfRange, finfo := a }) ∧
    (∀ v, firstFailure s i = some (.negativeOperand v) →
      exec i s = .next { s with status := .fault, cause := .negativeOperand, finfo := v }) ∧
    (firstFailure s i = none → ∃ t, exec i s = .next t ∧ t = { s with mem := t.mem })

/-- 42_sqrt_alu.md R111: `NegativeOperand` is raised by `SQRT` and by nothing else, exactly when the value read through the
pointer is below zero; and the sign of a value in range is bit `CELL_BITS-1` of its stored form. -/
def Obligations.NegativeOperandExactlyOnNegativeRoot : Prop :=
  (∀ (i : Instr) (s t : State), s.cause ≠ .negativeOperand → exec i s = .next t →
    (t.cause = .negativeOperand ↔
      ∃ dstAddr ptrAddr valueAddr : Nat, i = .sqrt dstAddr ptrAddr ∧ ptrAddr < s.params.memCells ∧
        (valueAddr : Int) = s.cell ptrAddr ∧ valueAddr < s.params.memCells ∧ s.cell valueAddr < 0)) ∧
  (∀ (p : Params) (v : Int), p.valid = true → p.holdsValue v = true →
    ((storedForm p.cellBits v).getLsbD (p.cellBits - 1) = true ↔ v < 0))

/-! ### The integer square root -/

/-- 42_sqrt_alu.md R113: `isqrt(v)` is the unique integer whose square is at most `v` and whose successor's square is
above `v`. -/
def Obligations.IsqrtIsTheFloorRoot : Prop :=
  ∀ v r : Nat, isqrt v = r ↔ r * r ≤ v ∧ v < (r + 1) * (r + 1)

/-- 42_sqrt_alu.md R114: the properties of `isqrt` a model can rely on. -/
def Obligations.IsqrtHasTheListedProperties : Prop :=
  isqrt 0 = 0 ∧ isqrt 1 = 1 ∧ isqrt 2 = 1 ∧ isqrt 3 = 1 ∧ isqrt 4 = 2 ∧
  (∀ k, isqrt (k * k) = k) ∧ (∀ k, 1 ≤ k → isqrt (k * k - 1) = k - 1) ∧
  (∀ u v, u ≤ v → isqrt u ≤ isqrt v) ∧ (∀ v, isqrt v ≤ v ∧ (isqrt v = v ↔ v = 0 ∨ v = 1)) ∧
  (∀ cellBits, 24 ≤ cellBits → isqrt (2 ^ (cellBits - 1) - 1) < 2 ^ ((cellBits - 1 + 1) / 2)) ∧
  isqrt 2147483647 = 46340 ∧ isqrt 8388607 = 2896

/-- 42_sqrt_alu.md R115: the digit-by-digit algorithm gives the exact root of every non-negative cell value. -/
def Obligations.DigitAlgorithmComputesIsqrt : Prop :=
  ∀ cellBits v : Nat, 24 ≤ cellBits → v < 2 ^ (cellBits - 1) → digitSqrt cellBits v = isqrt v

/-! ### The whole machine -/

/-- Every step keeps the state invariant: legal parameters, canonical Memory with every cell in range, `pc` inside the
Program and at its end on `HALT`, a cause exactly on `FAULT` (10_state.md R12, R15 a, R18). -/
def Obligations.StepKeepsTheInvariant : Prop :=
  ∀ s t : State, s.Inv → step s = .next t → t.Inv

/-- 10_state.md R15 d: `pc` is always an instruction boundary of the sequential decoding from offset 0, and R15 b: it
never decreases. -/
def Obligations.PcStaysOnABoundary : Prop :=
  ∀ s t : State, Boundary s.prog s.pc → step s = .next t → Boundary t.prog t.pc ∧ s.pc ≤ t.pc

/-- 60_exceptions.md R120 to R124 and R127: every step keeps the fault record true: no cause with `finfo` 0 while running,
and after a fault the cause that the bytes at `pc` and the cells give, with the information R127 names for it. -/
def Obligations.StepKeepsTheFaultRecordTrue : Prop :=
  ∀ s t : State, (s.status ≠ .fault → s.cause = .none) → s.faultRecord → step s = .next t →
    t.faultRecord ∧ (t.status ≠ .fault → t.cause = .none)

/-- 42_sqrt_alu.md R116: no step puts a value outside the cell range into a cell; and in every run from zeroed Memory with
no preload every cell always holds 0 .. 8388607, so `NegativeOperand` does not occur and every computed address is
non-negative. -/
def Obligations.NoDataOverflow : Prop :=
  (∀ s t : State, s.params.valid = true → s.mem.bounded s.params = true → step s = .next t →
    t.mem.bounded t.params = true) ∧
  (∀ (p : Params) (prog : List Byte) (s t : State) (n : Nat),
    launch p prog [] = .next s → runSteps n s = .next t →
    t.CellsMade ∧ t.cause ≠ .negativeOperand ∧ ∀ a offset : Nat, 0 ≤ effectiveAddress (t.cell a) offset)

/-- 40_sequencer_decoder.md R95: every run ends after at most `floor(PROG_LEN / 5) + 1` steps, since each step from `RUN`
ends the run or increases `pc` by at least 5. -/
def Obligations.RunEndsWithinTheBound : Prop :=
  (∀ s t : State, s.status = .run → step s = .next t → t.status ≠ .run ∨ s.pc + 5 ≤ t.pc) ∧
  ∀ s : State, ∃ t, runSteps (s.prog.length / 5 + 1) s = .next t ∧ t.status ≠ .run

/-- 40_sequencer_decoder.md R82: a run executes the Program's instructions strictly one after another in ascending offset
order, each exactly once, and ends; with no instruction the first step halts. -/
def Obligations.RunExecutesTheListingInOrder : Prop :=
  ∀ (s : State) (is : List Instr), s.status = .run → s.pc = 0 → decodeProgram s.prog = .ok is →
    runSteps (is.length + 1) s = .next (straightLine is s) ∧ (straightLine is s).status ≠ .run ∧
      (is = [] → step s = .next { s with status := .halt })

/-- 40_sequencer_decoder.md R83, the clean end: a run that ends in `HALT` executed a Program that decodes whole, every
instruction of it in order, and stands at its end. -/
def Obligations.CleanEndExecutedEverything : Prop :=
  ∀ (s t : State) (n : Nat), s.status = .run → s.pc = 0 → s.cause = .none → runSteps n s = .next t → t.status = .halt →
    ∃ is, decodeProgram s.prog = .ok is ∧ t = straightLine is s ∧ t.pc = s.prog.length ∧ t.cause = .none

/-- 41_data_movement.md R106: over any run a cell changes only if an instruction that decodes somewhere in the Program names
it in its direct destination field, and only below `min(MEM_CELLS, 16384)`. -/
def Obligations.RunWritesOnlyNamedCells : Prop :=
  ∀ (s t : State) (n a : Nat), s.mem.wf = true → runSteps n s = .next t → t.cell a ≠ s.cell a →
    (∃ o i len, decode s.prog o = .ok (i, len) ∧ storeField i = a) ∧ a < s.params.memCells ∧ a < 16384

/-- 20_memory.md R46: no run changes the Program or the parameters, so what decodes at an offset is the same before and
after it, whatever was stored. -/
def Obligations.FetchNeverSeesAStore : Prop :=
  ∀ (s t : State) (n : Nat), runSteps n s = .next t →
    t.prog = s.prog ∧ t.params = s.params ∧ ∀ o, decode t.prog o = decode s.prog o

/-- 10_state.md R19, R21: no step depends on `cause` or `finfo`: with other values in them it does the same to everything
else. -/
def Obligations.FaultRecordIsNeverRead : Prop :=
  ∀ (s t : State) (c : Cause) (f : Int), step s = .next t →
    ∃ t', step { s with cause := c, finfo := f } = .next t' ∧ { t' with cause := t.cause, finfo := t.finfo } = t
end

