-- ==== Sys2Proof/Laws/Decode.lean ====
section
/-! SUPPORT. What the decoder and the encoder's helpers do. -/

namespace Sys2Proof

/-! ### Opcodes -/

/-- A tag names an opcode exactly when it is that opcode's (30_encoding.md R51). -/
theorem ofCode_eq_some {n : Nat} {op : Opcode} : Opcode.ofCode n = some op ↔ n = op.code := by
  constructor
  · intro h
    unfold Opcode.ofCode at h
    split_ifs at h <;> simp_all [Opcode.code] <;> subst h <;> rfl
  · rintro rfl
    cases op <;> rfl

/-- A tag is illegal exactly when it is none of the four (30_encoding.md R63). -/
theorem ofCode_eq_none {n : Nat} : Opcode.ofCode n = none ↔ n ≠ 118 ∧ n ≠ 6 ∧ n ≠ 44 ∧ n ≠ 57 := by
  unfold Opcode.ofCode
  split_ifs <;> simp_all

/-- A group is 5 or 6 bytes (30_encoding.md R52). -/
theorem byteLength_cases (op : Opcode) : op.byteLength = 5 ∨ op.byteLength = 6 := by
  cases op <;> simp [Opcode.byteLength]

/-- The opcode bits of a byte are its value modulo 128 (40_sequencer_decoder.md R85). -/
theorem opcodeBits_eq (b : Byte) : opcodeBits b = b.toNat % 128 := by
  simp [opcodeBits, slice]

/-! ### Bytes and words -/

@[simp] theorem length_bytesOfWord (n w : Nat) : (bytesOfWord n w).length = n := by
  induction n generalizing w with
  | zero => rfl
  | succ n ih => simp [bytesOfWord, ih]

/-- The bytes of a word, read back: the word cut to their number (20_memory.md R36, 30_encoding.md R60). -/
theorem wordOfBytes_bytesOfWord (n w : Nat) : wordOfBytes (bytesOfWord n w) = w % 256 ^ n := by
  induction n generalizing w with
  | zero => simp [bytesOfWord, wordOfBytes, Nat.mod_one]
  | succ n ih =>
    rw [bytesOfWord, wordOfBytes, ih, Nat.pow_succ', Nat.mod_mul]
    simp

/-- The word of a group has eight bits for each byte (30_encoding.md R50). -/
theorem wordOfBytes_lt (bs : List Byte) : wordOfBytes bs < 256 ^ bs.length := by
  induction bs with
  | nil => simp [wordOfBytes]
  | cons b bs ih =>
    have hb := b.isLt
    rw [wordOfBytes, List.length_cons, Nat.pow_succ']
    omega

/-- A word's bytes are determined by it: the bytes of the word of a group are the group. -/
theorem bytesOfWord_wordOfBytes (bs : List Byte) : bytesOfWord bs.length (wordOfBytes bs) = bs := by
  induction bs with
  | nil => rfl
  | cons b bs ih =>
    have hb := b.isLt
    have hdiv : (b.toNat + 256 * wordOfBytes bs) / 256 = wordOfBytes bs := by omega
    rw [List.length_cons, bytesOfWord, wordOfBytes, hdiv, ih]
    congr 1
    apply BitVec.eq_of_toNat_eq
    rw [BitVec.toNat_ofNat]
    omega

@[simp] theorem length_encode (i : Instr) : (encode i).length = i.byteLength := length_bytesOfWord ..

/-! ### The decoder -/

/-- The three ways a decode ends, each with all its conditions (40_sequencer_decoder.md R84). -/
theorem decode_ok_iff {prog : List Byte} {o : Nat} {i : Instr} {len : Nat} :
    decode prog o = .ok (i, len) ↔
      ∃ b op, prog[o]? = some b ∧ Opcode.ofCode (opcodeBits b) = some op ∧ o + op.byteLength ≤ prog.length ∧
        i = op.unpack (wordOfBytes (groupBytes prog o op.byteLength)) ∧ len = op.byteLength := by
  constructor
  · intro h
    unfold decode at h
    split at h
    · cases h
    · next b hb =>
      split at h
      · cases h
      · next op hop =>
        split at h
        · cases h
        · next hlen =>
          cases h
          exact ⟨b, op, hb, hop, by omega, rfl, rfl⟩
  · rintro ⟨b, op, hb, hop, hlen, rfl, rfl⟩
    simp only [decode, hb, hop, if_neg (Nat.not_lt.2 hlen)]

theorem decode_unknownOpcode_iff {prog : List Byte} {o k : Nat} :
    decode prog o = .error (.unknownOpcode k) ↔
      ∃ b, prog[o]? = some b ∧ Opcode.ofCode (opcodeBits b) = none ∧ k = opcodeBits b := by
  constructor
  · intro h
    unfold decode at h
    split at h
    · cases h
    · next b hb =>
      split at h
      · next hop => cases h; exact ⟨b, hb, hop, rfl⟩
      · split at h <;> cases h
  · rintro ⟨b, hb, hop, rfl⟩
    simp only [decode, hb, hop]

theorem decode_unexpectedEnd_iff {prog : List Byte} {o k : Nat} :
    decode prog o = .error (.unexpectedEndOfProgram k) ↔
      (prog.length ≤ o ∧ k = 0) ∨
      ∃ b op, prog[o]? = some b ∧ Opcode.ofCode (opcodeBits b) = some op ∧ prog.length < o + op.byteLength ∧
        k = op.byteLength := by
  constructor
  · intro h
    unfold decode at h
    split at h
    · next hn => cases h; exact .inl ⟨by simpa using hn, rfl⟩
    · next b hb =>
      split at h
      · cases h
      · next op hop =>
        split at h
        · next hlen => cases h; exact .inr ⟨b, op, hb, hop, hlen, rfl⟩
        · cases h
  · rintro (⟨h, rfl⟩ | ⟨b, op, hb, hop, hlen, rfl⟩)
    · have hn : prog[o]? = none := by simpa using h
      simp only [decode, hn]
    · simp only [decode, hb, hop, if_pos hlen]

/-- A successful decode never leaves the Program, and moves on by at least 5 bytes (40_sequencer_decoder.md R86, R95). -/
theorem decode_ok_bounds {prog : List Byte} {o : Nat} {i : Instr} {len : Nat} (h : decode prog o = .ok (i, len)) :
    o + len ≤ prog.length ∧ 5 ≤ len ∧ len ≤ 6 := by
  obtain ⟨b, op, -, -, hlen, -, rfl⟩ := decode_ok_iff.1 h
  rcases byteLength_cases op with h5 | h6 <;> omega

/-- The instruction an opcode unpacks to is one of that opcode (40_sequencer_decoder.md R87). -/
@[simp] theorem opcode_unpack (op : Opcode) (w : Nat) : (op.unpack w).opcode = op := by
  cases op <;> rfl

/-- The length a decode returns is the decoded instruction's (40_sequencer_decoder.md R90). -/
theorem decode_ok_length {prog : List Byte} {o : Nat} {i : Instr} {len : Nat} (h : decode prog o = .ok (i, len)) :
    len = i.byteLength := by
  obtain ⟨b, op, -, -, -, rfl, rfl⟩ := decode_ok_iff.1 h
  simp [Instr.byteLength]

/-! ### A whole group, wherever it stands -/

/-- The opcode bits of a group are the low 7 bits of its word (20_memory.md R36). -/
theorem wordOfBytes_cons_mod (b : Byte) (bs : List Byte) : wordOfBytes (b :: bs) % 128 = opcodeBits b := by
  rw [opcodeBits_eq, wordOfBytes]
  omega

/-- The bytes of a group that stands between others. -/
theorem groupBytes_append (before g after : List Byte) :
    groupBytes (before ++ g ++ after) before.length g.length = g := by
  simp [groupBytes]

/-- A group of a legal opcode and of its length decodes where it stands, whatever stands around it (30_encoding.md R66:
no padding and no alignment between groups). -/
theorem decode_group (before g after : List Byte) {op : Opcode} (hl : g.length = op.byteLength)
    (hc : wordOfBytes g % 128 = op.code) :
    decode (before ++ g ++ after) before.length = .ok (op.unpack (wordOfBytes g), op.byteLength) := by
  rw [decode_ok_iff]
  cases g with
  | nil => cases op <;> simp [Opcode.byteLength] at hl
  | cons b bs =>
    rw [wordOfBytes_cons_mod] at hc
    refine ⟨b, op, by simp, ofCode_eq_some.2 hc, by rw [← hl]; simp, ?_, rfl⟩
    rw [← hl, groupBytes_append]

/-! ### Instruction words as sums of their fields (30_encoding.md R60) -/

/-- Masking is reduction modulo the field's size (00_scope.md, glossary: mask). -/
theorem maskField_eq_mod (width v : Nat) : maskField width v = v % 2 ^ width := Nat.and_two_pow_sub_one_eq_mod _ _

/-- Packing a field above everything packed so far is an addition. -/
theorem or_shiftLeft_eq_add {w v off : Nat} (h : w < 2 ^ off) : w ||| v <<< off = w + v * 2 ^ off := by
  rw [Nat.or_comm, ← Nat.shiftLeft_add_eq_or_of_lt h, Nat.shiftLeft_eq, Nat.add_comm]

theorem encodeWord_load (const addr : Nat) :
    encodeWord (.load const addr) = 118 + const % 2 ^ 23 * 2 ^ 7 + addr % 2 ^ 14 * 2 ^ 30 := by
  have := Nat.mod_lt const (show 0 < 2 ^ 23 by decide)
  simp only [encodeWord, maskField_eq_mod, constBits, addrBits]
  rw [or_shiftLeft_eq_add (w := 118) (by decide), or_shiftLeft_eq_add (by omega)]

theorem encodeWord_read (ptrAddr dstAddr offset : Nat) :
    encodeWord (.read ptrAddr dstAddr offset) =
      6 + ptrAddr % 2 ^ 14 * 2 ^ 7 + dstAddr % 2 ^ 14 * 2 ^ 21 + offset % 2 ^ 7 * 2 ^ 35 := by
  have := Nat.mod_lt ptrAddr (show 0 < 2 ^ 14 by decide)
  have := Nat.mod_lt dstAddr (show 0 < 2 ^ 14 by decide)
  simp only [encodeWord, maskField_eq_mod, offsBits, addrBits]
  rw [or_shiftLeft_eq_add (w := 6) (by decide), or_shiftLeft_eq_add (w := 6 + _) (off := 21) (by omega),
    or_shiftLeft_eq_add (by omega)]

theorem encodeWord_write (srcAddr dstAddr : Nat) :
    encodeWord (.write srcAddr dstAddr) = 44 + srcAddr % 2 ^ 14 * 2 ^ 7 + dstAddr % 2 ^ 14 * 2 ^ 21 := by
  have := Nat.mod_lt srcAddr (show 0 < 2 ^ 14 by decide)
  simp only [encodeWord, maskField_eq_mod, addrBits]
  rw [or_shiftLeft_eq_add (w := 44) (by decide), or_shiftLeft_eq_add (by omega)]

theorem encodeWord_sqrt (dstAddr ptrAddr : Nat) :
    encodeWord (.sqrt dstAddr ptrAddr) = 57 + dstAddr % 2 ^ 14 * 2 ^ 7 + ptrAddr % 2 ^ 14 * 2 ^ 21 := by
  have := Nat.mod_lt dstAddr (show 0 < 2 ^ 14 by decide)
  simp only [encodeWord, maskField_eq_mod, addrBits]
  rw [or_shiftLeft_eq_add (w := 57) (by decide), or_shiftLeft_eq_add (by omega)]

end Sys2Proof
end

