-- ==== Sys2Proof/Laws/Memory.lean ====
section
/-! SUPPORT. What the Memory operations do: read after write, the canonical form kept by every operation, equal readings
give equal memories, and cells kept in range. -/

namespace Sys2Proof.Machine.Memory

/-- The reset contents: every cell reads 0 (10_state.md R12). -/
@[simp] theorem read_nil (a : Nat) : Memory.read [] a = 0 := rfl

/-- Reset Memory is in canonical form. -/
theorem wf_nil : Memory.wf [] = true := rfl

/-- The canonical form from `lo`, spelled out for a non-empty list. -/
theorem wfFrom_cons (lo a : Nat) (v : Int) (m : Memory) :
    Memory.wfFrom lo ((a, v) :: m) = true ↔ lo ≤ a ∧ v ≠ 0 ∧ Memory.wfFrom (a + 1) m = true := by
  simp only [Memory.wfFrom, Memory.unlisted, Bool.and_eq_true, decide_eq_true_eq, and_assoc]

/-- A canonical form from a higher address is one from a lower address. -/
theorem wfFrom_mono {lo hi : Nat} (h : lo ≤ hi) : ∀ {m : Memory}, Memory.wfFrom hi m = true → Memory.wfFrom lo m = true
  | [], _ => rfl
  | (a, v) :: m, hm => by
    rw [wfFrom_cons] at hm ⊢
    exact ⟨by omega, hm.2⟩

/-- Below its first possible address a canonical memory lists nothing. -/
theorem read_eq_zero_of_lt {lo a : Nat} (h : a < lo) : ∀ {m : Memory}, Memory.wfFrom lo m = true → m.read a = 0
  | [], _ => rfl
  | (b, v) :: m, hm => by
    rw [wfFrom_cons] at hm
    have hab : a ≠ b := by omega
    simp only [Memory.read, if_neg hab]
    exact read_eq_zero_of_lt (by omega) hm.2.2

/-- Placing a pair in front of cells that all lie above it. -/
theorem read_place {a b : Nat} {v : Int} {m : Memory} (hm : m.read a = 0) :
    (Memory.place a v m).read b = if b = a then v else m.read b := by
  unfold Memory.place
  split
  · next hv =>
    split
    · next h => rw [h, hm, hv]
    · rfl
  · simp only [Memory.read]

/-- Read after write, on a canonical memory: the written value at the written cell, the old value at every other
(20_memory.md R43). -/
theorem read_write_from {lo a b : Nat} {v : Int} :
    ∀ {m : Memory}, Memory.wfFrom lo m = true → (m.write a v).read b = if b = a then v else m.read b
  | [], _ => by simpa [Memory.write] using read_place (m := []) rfl
  | (c, u) :: m, hm => by
    have hm' := (wfFrom_cons lo c u m).1 hm
    unfold Memory.write
    split
    · next h =>
      refine read_place ?_
      have hac : a ≠ c := by omega
      simp only [Memory.read, if_neg hac]
      exact read_eq_zero_of_lt (by omega) hm'.2.2
    · split
      · next h =>
        rw [read_place (read_eq_zero_of_lt (by omega) hm'.2.2)]
        by_cases hb : b = a
        · simp [hb]
        · have hbc : b ≠ c := by omega
          simp [hb, Memory.read, hbc]
      · next h1 h2 =>
        simp only [Memory.read]
        by_cases hb : b = c
        · have hba : b ≠ a := by omega
          rw [if_pos hb, if_neg hba, if_pos hb]
        · simp only [if_neg hb]
          exact read_write_from hm'.2.2

/-- Read after write (20_memory.md R43). -/
theorem read_write {m : Memory} (hm : m.wf = true) (a b : Nat) (v : Int) :
    (m.write a v).read b = if b = a then v else m.read b :=
  read_write_from hm

/-- Placing a pair in front keeps the canonical form. -/
theorem wfFrom_place {lo a : Nat} {v : Int} {m : Memory} (ha : lo ≤ a) (hm : Memory.wfFrom (a + 1) m = true) :
    Memory.wfFrom lo (Memory.place a v m) = true := by
  unfold Memory.place
  split
  · exact wfFrom_mono (by omega) hm
  · next hv => exact (wfFrom_cons ..).2 ⟨ha, hv, hm⟩

/-- A write at or above `lo` keeps the canonical form from `lo`. -/
theorem wfFrom_write {lo a : Nat} {v : Int} (ha : lo ≤ a) :
    ∀ {m : Memory}, Memory.wfFrom lo m = true → Memory.wfFrom lo (m.write a v) = true
  | [], _ => wfFrom_place ha rfl
  | (c, u) :: m, hm => by
    have hm' := (wfFrom_cons lo c u m).1 hm
    unfold Memory.write
    split
    · exact wfFrom_place ha ((wfFrom_cons ..).2 ⟨by omega, hm'.2⟩)
    · split
      · next h => exact wfFrom_place ha (h ▸ hm'.2.2)
      · exact (wfFrom_cons ..).2 ⟨hm'.1, hm'.2.1, wfFrom_write (by omega) hm'.2.2⟩

/-- Every write keeps the canonical form. -/
theorem wf_write {m : Memory} (hm : m.wf = true) (a : Nat) (v : Int) : (m.write a v).wf = true :=
  wfFrom_write (Nat.zero_le a) hm

/-- Two canonical memories that read the same everywhere are the same list. -/
theorem ext_from {lo : Nat} : ∀ {m n : Memory}, Memory.wfFrom lo m = true → Memory.wfFrom lo n = true →
    (∀ a, m.read a = n.read a) → m = n
  | [], [], _, _, _ => rfl
  | [], (b, v) :: n, _, hn, h => by
    have hb := h b
    have hn' := (wfFrom_cons ..).1 hn
    simp [Memory.read] at hb
    exact absurd hb.symm hn'.2.1
  | (a, u) :: m, [], hm, _, h => by
    have ha := h a
    have hm' := (wfFrom_cons ..).1 hm
    simp [Memory.read] at ha
    exact absurd ha hm'.2.1
  | (a, u) :: m, (b, v) :: n, hm, hn, h => by
    have hm' := (wfFrom_cons ..).1 hm
    have hn' := (wfFrom_cons ..).1 hn
    have hab : a = b := by
      by_contra hne
      have ha := h a
      have hb := h b
      simp only [Memory.read, if_true, if_neg hne, if_neg (Ne.symm hne)] at ha hb
      rcases Nat.lt_or_gt_of_ne hne with hlt | hlt
      · rw [read_eq_zero_of_lt (by omega) hn'.2.2] at ha
        exact hm'.2.1 ha
      · rw [read_eq_zero_of_lt (by omega) hm'.2.2] at hb
        exact hn'.2.1 hb.symm
    subst hab
    have huv := h a
    simp only [Memory.read, if_true] at huv
    have hrest : ∀ c, Memory.read m c = Memory.read n c := fun c => by
      by_cases hc : c = a
      · rw [hc, read_eq_zero_of_lt (by omega) hm'.2.2, read_eq_zero_of_lt (by omega) hn'.2.2]
      · simpa only [Memory.read, if_neg hc] using h c
    rw [huv, ext_from hm'.2.2 hn'.2.2 hrest]

/-- Equal readings give equal memories. -/
theorem ext_of_wf {m n : Memory} (hm : m.wf = true) (hn : n.wf = true) (h : ∀ a, m.read a = n.read a) : m = n :=
  ext_from hm hn h

/-- Writing the value a cell already holds changes nothing (20_memory.md R42). -/
theorem write_same {m : Memory} (hm : m.wf = true) (a : Nat) : m.write a (m.read a) = m :=
  ext_of_wf (wf_write hm a _) hm fun b => by
    rw [read_write hm]
    split
    · next h => rw [h]
    · rfl

/-- What a written memory lists: the written pair, or pairs that were listed before. -/
theorem mem_write {a : Nat} {v : Int} {c : Nat × Int} :
    ∀ {m : Memory}, c ∈ m.write a v → c = (a, v) ∨ c ∈ m
  | [], h => by
    unfold Memory.write Memory.place at h
    split at h <;> simp_all
  | (b, u) :: m, h => by
    unfold Memory.write Memory.place at h
    split at h
    · split at h
      · exact .inr h
      · exact (List.mem_cons.1 h).imp_right id
    · split at h
      · split at h
        · exact .inr (List.mem_cons_of_mem _ h)
        · exact (List.mem_cons.1 h).imp_right (List.mem_cons_of_mem _)
      · rcases List.mem_cons.1 h with h | h
        · exact .inr (h ▸ List.mem_cons_self)
        · exact (mem_write h).imp_right (List.mem_cons_of_mem _)

/-- Writing an existing cell with a value in range keeps Memory in range (42_sqrt_alu.md R116). -/
theorem bounded_write {p : Params} {m : Memory} {a : Nat} {v : Int} (hm : m.bounded p = true)
    (ha : p.holdsAddr a = true) (hv : p.holdsValue v = true) : (m.write a v).bounded p = true := by
  refine List.all_eq_true.2 fun c hc => ?_
  rcases mem_write hc with h | h
  · rw [h]; simp [ha, hv]
  · exact List.all_eq_true.1 hm c h

/-- The value read from a cell is the unlisted value or one of the listed ones. -/
theorem read_mem : ∀ (m : Memory) (a : Nat), m.read a = 0 ∨ (a, m.read a) ∈ m
  | [], _ => .inl rfl
  | (b, v) :: m, a => by
    unfold Memory.read
    split
    · next h => exact .inr (h ▸ List.mem_cons_self)
    · exact (read_mem m a).imp_right (List.mem_cons_of_mem _)

/-- Zero is a value of every cell. -/
theorem holdsValue_zero (p : Params) : p.holdsValue 0 = true := by
  have h : (0 : Int) < 2 ^ (p.cellBits - 1) := by positivity
  simp only [Params.holdsValue, Bool.and_eq_true, decide_eq_true_eq]
  exact ⟨by linarith, h⟩

/-- Every cell of a Memory in range reads a value in range. -/
theorem holdsValue_read {p : Params} {m : Memory} (hm : m.bounded p = true) (a : Nat) :
    p.holdsValue (m.read a) = true := by
  rcases read_mem m a with h | h
  · rw [h]; exact holdsValue_zero p
  · have := List.all_eq_true.1 hm _ h
    simp only [Bool.and_eq_true] at this
    exact this.2

end Sys2Proof.Machine.Memory
end

