-- ==== Sys2Proof/Laws/State.lean ====
section
/-! SUPPORT. One lemma for each field of State and each update of it, so that no later proof unfolds a record update. -/

namespace Sys2Proof.Machine

/-! ### Fault entry (60_exceptions.md R132) -/

@[simp] theorem takeFault_params (s : State) (e : Trap) : (s.takeFault e).params = s.params := rfl
@[simp] theorem takeFault_prog (s : State) (e : Trap) : (s.takeFault e).prog = s.prog := rfl
@[simp] theorem takeFault_mem (s : State) (e : Trap) : (s.takeFault e).mem = s.mem := rfl
@[simp] theorem takeFault_pc (s : State) (e : Trap) : (s.takeFault e).pc = s.pc := rfl
@[simp] theorem takeFault_status (s : State) (e : Trap) : (s.takeFault e).status = .fault := rfl
@[simp] theorem takeFault_cause (s : State) (e : Trap) : (s.takeFault e).cause = e.cause := rfl
@[simp] theorem takeFault_finfo (s : State) (e : Trap) : (s.takeFault e).finfo = e.info := rfl
@[simp] theorem takeFault_cell (s : State) (e : Trap) (a : Nat) : (s.takeFault e).cell a = s.cell a := rfl

/-! ### The halt transition (40_sequencer_decoder.md R81) -/

@[simp] theorem enterHalt_params (s : State) : s.enterHalt.params = s.params := rfl
@[simp] theorem enterHalt_prog (s : State) : s.enterHalt.prog = s.prog := rfl
@[simp] theorem enterHalt_mem (s : State) : s.enterHalt.mem = s.mem := rfl
@[simp] theorem enterHalt_pc (s : State) : s.enterHalt.pc = s.pc := rfl
@[simp] theorem enterHalt_status (s : State) : s.enterHalt.status = .halt := rfl
@[simp] theorem enterHalt_cause (s : State) : s.enterHalt.cause = s.cause := rfl
@[simp] theorem enterHalt_finfo (s : State) : s.enterHalt.finfo = s.finfo := rfl
@[simp] theorem enterHalt_cell (s : State) (a : Nat) : s.enterHalt.cell a = s.cell a := rfl

/-! ### The advance of `pc` (40_sequencer_decoder.md R90) -/

@[simp] theorem advance_params (s : State) (n : Nat) : (s.advance n).params = s.params := rfl
@[simp] theorem advance_prog (s : State) (n : Nat) : (s.advance n).prog = s.prog := rfl
@[simp] theorem advance_mem (s : State) (n : Nat) : (s.advance n).mem = s.mem := rfl
@[simp] theorem advance_pc (s : State) (n : Nat) : (s.advance n).pc = s.pc + n := rfl
@[simp] theorem advance_status (s : State) (n : Nat) : (s.advance n).status = s.status := rfl
@[simp] theorem advance_cause (s : State) (n : Nat) : (s.advance n).cause = s.cause := rfl
@[simp] theorem advance_finfo (s : State) (n : Nat) : (s.advance n).finfo = s.finfo := rfl
@[simp] theorem advance_cell (s : State) (n : Nat) (a : Nat) : (s.advance n).cell a = s.cell a := rfl

/-! ### The host's reset (70_reset_and_hazards.md R150) -/

@[simp] theorem hostReset_params (s : State) : s.hostReset.params = s.params := rfl
@[simp] theorem hostReset_prog (s : State) : s.hostReset.prog = s.prog := rfl
@[simp] theorem hostReset_mem (s : State) : s.hostReset.mem = [] := rfl
@[simp] theorem hostReset_pc (s : State) : s.hostReset.pc = 0 := rfl
@[simp] theorem hostReset_status (s : State) : s.hostReset.status = .run := rfl
@[simp] theorem hostReset_cause (s : State) : s.hostReset.cause = .none := rfl
@[simp] theorem hostReset_finfo (s : State) : s.hostReset.finfo = 0 := rfl

/-! ### Status -/

/-- A machine is stopped exactly when its status is not `RUN` (10_state.md R20). -/
theorem stopped_iff (s : State) : s.stopped = true ↔ s.status ≠ .run := by
  simp [State.stopped]

/-- A machine is not stopped exactly when its status is `RUN`. -/
theorem not_stopped_iff (s : State) : s.stopped = false ↔ s.status = .run := by
  simp [State.stopped]

/-- The halt test fires exactly when no Program byte is left at `pc` (40_sequencer_decoder.md R81). -/
theorem atEnd_iff (s : State) : s.atEnd = true ↔ s.prog.length ≤ s.pc := by
  simp [State.atEnd]

end Sys2Proof.Machine
end

