-- ==== Sys2Proof/Laws/Ops.lean ====
section
/-! SUPPORT. For each shared operation, once, everything it can do. The provers cite these instead of unfolding. -/

namespace Sys2Proof.Machine

/-- The port's check, as a condition on the exact signed address (20_memory.md R35). -/
theorem holdsAddr_iff (p : Params) (a : Int) : p.holdsAddr a = true ↔ 0 ≤ a ∧ a < (p.memCells : Int) := by
  simp [Params.holdsAddr]

/-! ### The memory port (20_memory.md R35) -/

theorem checkedRead_ok {s : State} {a : Int} (h0 : 0 ≤ a) (h1 : a < (s.params.memCells : Int)) :
    checkedRead s a = .ok (s.cell a.toNat) :=
  if_neg (by omega)

theorem checkedRead_bad {s : State} {a : Int} (h : a < 0 ∨ (s.params.memCells : Int) ≤ a) :
    checkedRead s a = .error (.addressOutOfRange a) :=
  if_pos h

/-- Everything a checked read can answer. -/
theorem checkedRead_cases (s : State) (a : Int) :
    (0 ≤ a ∧ a < (s.params.memCells : Int) ∧ checkedRead s a = .ok (s.cell a.toNat)) ∨
    ((a < 0 ∨ (s.params.memCells : Int) ≤ a) ∧ checkedRead s a = .error (.addressOutOfRange a)) := by
  by_cases h : a < 0 ∨ (s.params.memCells : Int) ≤ a
  · exact .inr ⟨h, checkedRead_bad h⟩
  · exact .inl ⟨by omega, by omega, checkedRead_ok (by omega) (by omega)⟩

/-- A checked read of a direct address of an existing cell. -/
theorem checkedRead_direct {s : State} {f : Nat} (h : f < s.params.memCells) :
    checkedRead s (direct f) = .ok (s.cell f) :=
  checkedRead_ok (Int.natCast_nonneg f) (by unfold direct; exact_mod_cast h)

/-- A checked read of a direct address past the last cell. -/
theorem checkedRead_direct_bad {s : State} {f : Nat} (h : s.params.memCells ≤ f) :
    checkedRead s (direct f) = .error (.addressOutOfRange f) :=
  checkedRead_bad (.inr (by unfold direct; exact_mod_cast h))

/-- A checked write to a direct address of an existing cell. -/
theorem checkedWrite_direct {s : State} {f : Nat} {v : Int} (h : f < s.params.memCells) :
    checkedWrite s (direct f) v = .ok { s with mem := s.mem.write f v } := by
  have h' : ¬((direct f) < 0 ∨ (s.params.memCells : Int) ≤ direct f) := by
    unfold direct; omega
  simp only [checkedWrite, if_neg h']
  rfl

/-- A checked write to a direct address past the last cell. -/
theorem checkedWrite_direct_bad {s : State} {f : Nat} {v : Int} (h : s.params.memCells ≤ f) :
    checkedWrite s (direct f) v = .error (.addressOutOfRange f) :=
  if_pos (.inr (by unfold direct; exact_mod_cast h))

/-- Everything a checked write to a direct field can answer. -/
theorem checkedWrite_direct_cases (s : State) (f : Nat) (v : Int) :
    (f < s.params.memCells ∧ checkedWrite s (direct f) v = .ok { s with mem := s.mem.write f v }) ∨
    (s.params.memCells ≤ f ∧ checkedWrite s (direct f) v = .error (.addressOutOfRange f)) :=
  (Nat.lt_or_ge f s.params.memCells).imp (fun h => ⟨h, checkedWrite_direct h⟩) fun h => ⟨h, checkedWrite_direct_bad h⟩

/-! ### A state with its Memory replaced: only the cells differ -/

section
variable (s : State) (m : Memory)
@[simp] theorem withMem_params : { s with mem := m }.params = s.params := rfl
@[simp] theorem withMem_prog : { s with mem := m }.prog = s.prog := rfl
@[simp] theorem withMem_pc : { s with mem := m }.pc = s.pc := rfl
@[simp] theorem withMem_status : { s with mem := m }.status = s.status := rfl
@[simp] theorem withMem_cause : { s with mem := m }.cause = s.cause := rfl
@[simp] theorem withMem_finfo : { s with mem := m }.finfo = s.finfo := rfl
@[simp] theorem withMem_cell (a : Nat) : { s with mem := m }.cell a = m.read a := rfl
end

/-! ### Addressing modes (41_data_movement.md R103) -/

theorem indirect_eq (s : State) (p : Nat) : indirect s p = checkedRead s (direct p) := rfl

theorem indirectDisp_ok {s : State} {p o : Nat} (h : p < s.params.memCells) :
    indirectDisp s p o = .ok (s.cell p + o) := by
  simp [indirectDisp, checkedRead_direct h, effectiveAddress, bind, Except.bind, pure, Except.pure]

theorem indirectDisp_bad {s : State} {p o : Nat} (h : s.params.memCells ≤ p) :
    indirectDisp s p o = .error (.addressOutOfRange p) := by
  simp [indirectDisp, checkedRead_direct_bad h, bind, Except.bind]

/-! ### The sign test (42_sqrt_alu.md R111) -/

theorem signTest_ok {v : Int} (h : 0 ≤ v) : signTest v = .ok v := if_neg (by omega)
theorem signTest_bad {v : Int} (h : v < 0) : signTest v = .error (.negativeOperand v) := if_pos h

/-! ### The end of an execution path (40_sequencer_decoder.md R80, 60_exceptions.md R133) -/

@[simp] theorem settle_ok (s t : State) : settle s (.ok t) = .next t := rfl
@[simp] theorem settle_error (s : State) (e : Trap) : settle s (.error e) = .next (s.takeFault e) := rfl

@[simp] theorem retire_next (n : Nat) (t : State) :
    retire n (.next t) = .next (if t.stopped then t else t.advance n) := rfl

end Sys2Proof.Machine
end

