-- ==== Sys2Proof/Laws/Exec.lean ====
section
/-! SUPPORT. What each meaning answers, path by path, and the inversion of `exec`: every instruction either writes its one
cell or enters a fault, and never stops the model. -/

namespace Sys2Proof.Machine

/-! ### `LOAD` (41_data_movement.md R100) -/

theorem execLoad_ok {c a : Nat} {s : State} (h : a < s.params.memCells) :
    execLoad c a s = .next { s with mem := s.mem.write a c } := by
  rw [execLoad, checkedWrite_direct h]; rfl

theorem execLoad_badAddr {c a : Nat} {s : State} (h : s.params.memCells ≤ a) :
    execLoad c a s = .next (s.takeFault (.addressOutOfRange a)) := by
  rw [execLoad, checkedWrite_direct_bad h]; rfl

/-! ### `WRITE` (41_data_movement.md R101) -/

theorem execWrite_ok {src dst : Nat} {s : State} (h : src < s.params.memCells) (hd : dst < s.params.memCells) :
    execWrite src dst s = .next { s with mem := s.mem.write dst (s.cell src) } := by
  rw [execWrite, checkedRead_direct h]
  change settle s (checkedWrite s (direct dst) (s.cell src)) = _
  rw [checkedWrite_direct hd]; rfl

theorem execWrite_badSrc {src dst : Nat} {s : State} (h : s.params.memCells ≤ src) :
    execWrite src dst s = .next (s.takeFault (.addressOutOfRange src)) := by
  rw [execWrite, checkedRead_direct_bad h]; rfl

theorem execWrite_badDst {src dst : Nat} {s : State} (h : src < s.params.memCells) (hd : s.params.memCells ≤ dst) :
    execWrite src dst s = .next (s.takeFault (.addressOutOfRange dst)) := by
  rw [execWrite, checkedRead_direct h]
  change settle s (checkedWrite s (direct dst) (s.cell src)) = _
  rw [checkedWrite_direct_bad hd]; rfl

/-! ### `READ` (41_data_movement.md R102) -/

section
variable {p d o : Nat} {s : State}

theorem execRead_badPtr (h : s.params.memCells ≤ p) :
    execRead p d o s = .next (s.takeFault (.addressOutOfRange p)) := by
  rw [execRead, indirectDisp_bad h]; rfl

theorem execRead_badEa (h : p < s.params.memCells) (he : s.cell p + o < 0 ∨ (s.params.memCells : Int) ≤ s.cell p + o) :
    execRead p d o s = .next (s.takeFault (.addressOutOfRange (s.cell p + o))) := by
  rw [execRead, indirectDisp_ok h]
  change settle s (checkedRead s (s.cell p + o) >>= fun v => checkedWrite s (direct d) v) = _
  rw [checkedRead_bad he]; rfl

theorem execRead_toWrite (h : p < s.params.memCells) (h0 : 0 ≤ s.cell p + o)
    (h1 : s.cell p + o < (s.params.memCells : Int)) :
    execRead p d o s = settle s (checkedWrite s (direct d) (s.cell (s.cell p + o).toNat)) := by
  rw [execRead, indirectDisp_ok h]
  change settle s (checkedRead s (s.cell p + o) >>= fun v => checkedWrite s (direct d) v) = _
  rw [checkedRead_ok h0 h1]; rfl

theorem execRead_ok (h : p < s.params.memCells) (h0 : 0 ≤ s.cell p + o)
    (h1 : s.cell p + o < (s.params.memCells : Int)) (hd : d < s.params.memCells) :
    execRead p d o s = .next { s with mem := s.mem.write d (s.cell (s.cell p + o).toNat) } := by
  rw [execRead_toWrite h h0 h1, checkedWrite_direct hd]; rfl

theorem execRead_badDst (h : p < s.params.memCells) (h0 : 0 ≤ s.cell p + o)
    (h1 : s.cell p + o < (s.params.memCells : Int)) (hd : s.params.memCells ≤ d) :
    execRead p d o s = .next (s.takeFault (.addressOutOfRange d)) := by
  rw [execRead_toWrite h h0 h1, checkedWrite_direct_bad hd]; rfl

end

/-! ### `SQRT` (42_sqrt_alu.md R110) -/

section
variable {d p : Nat} {s : State}

theorem execSqrt_badPtr (h : s.params.memCells ≤ p) :
    execSqrt d p s = .next (s.takeFault (.addressOutOfRange p)) := by
  rw [execSqrt, indirect_eq, checkedRead_direct_bad h]; rfl

theorem execSqrt_badValueAddr (h : p < s.params.memCells) (hv : s.cell p < 0 ∨ (s.params.memCells : Int) ≤ s.cell p) :
    execSqrt d p s = .next (s.takeFault (.addressOutOfRange (s.cell p))) := by
  rw [execSqrt, indirect_eq, checkedRead_direct h]
  change settle s (checkedRead s (s.cell p) >>= fun v => signTest v >>= fun x => checkedWrite s (direct d) (isqrtValue x)) = _
  rw [checkedRead_bad hv]; rfl

theorem execSqrt_toSignTest (h : p < s.params.memCells) (h0 : 0 ≤ s.cell p) (h1 : s.cell p < (s.params.memCells : Int)) :
    execSqrt d p s = settle s
      (signTest (s.cell (s.cell p).toNat) >>= fun x => checkedWrite s (direct d) (isqrtValue x)) := by
  rw [execSqrt, indirect_eq, checkedRead_direct h]
  change settle s (checkedRead s (s.cell p) >>= fun v => signTest v >>= fun x => checkedWrite s (direct d) (isqrtValue x)) = _
  rw [checkedRead_ok h0 h1]; rfl

theorem execSqrt_negative (h : p < s.params.memCells) (h0 : 0 ≤ s.cell p) (h1 : s.cell p < (s.params.memCells : Int))
    (hn : s.cell (s.cell p).toNat < 0) :
    execSqrt d p s = .next (s.takeFault (.negativeOperand (s.cell (s.cell p).toNat))) := by
  rw [execSqrt_toSignTest h h0 h1, signTest_bad hn]; rfl

theorem execSqrt_ok (h : p < s.params.memCells) (h0 : 0 ≤ s.cell p) (h1 : s.cell p < (s.params.memCells : Int))
    (hn : 0 ≤ s.cell (s.cell p).toNat) (hd : d < s.params.memCells) :
    execSqrt d p s = .next { s with mem := s.mem.write d (isqrtValue (s.cell (s.cell p).toNat)) } := by
  rw [execSqrt_toSignTest h h0 h1, signTest_ok hn]
  change settle s (checkedWrite s (direct d) _) = _
  rw [checkedWrite_direct hd]; rfl

theorem execSqrt_badDst (h : p < s.params.memCells) (h0 : 0 ≤ s.cell p) (h1 : s.cell p < (s.params.memCells : Int))
    (hn : 0 ≤ s.cell (s.cell p).toNat) (hd : s.params.memCells ≤ d) :
    execSqrt d p s = .next (s.takeFault (.addressOutOfRange d)) := by
  rw [execSqrt_toSignTest h h0 h1, signTest_ok hn]
  change settle s (checkedWrite s (direct d) _) = _
  rw [checkedWrite_direct_bad hd]; rfl

end

/-! ### Every instruction -/

/-- The value an instruction writes when it completes: the constant, the copied cell, or a root. -/
inductive Written (s : State) : Instr → Int → Prop where
  | load (c a : Nat) : Written s (.load c a) c
  | write (src dst : Nat) : Written s (.write src dst) (s.cell src)
  | read (p d o : Nat) : Written s (.read p d o) (s.cell (s.cell p + o).toNat)
  | sqrt (d p : Nat) : 0 ≤ s.cell (s.cell p).toNat → Written s (.sqrt d p) (isqrtValue (s.cell (s.cell p).toNat))

/-- Everything `exec` can do: write the one cell its store field names, or enter a fault with nothing else changed. -/
theorem exec_cases (i : Instr) (s : State) :
    (∃ v, Written s i v ∧ storeField i < s.params.memCells ∧
      exec i s = .next { s with mem := s.mem.write (storeField i) v }) ∨
    (∃ e, exec i s = .next (s.takeFault e)) := by
  cases i with
  | load c a =>
    rcases Nat.lt_or_ge a s.params.memCells with h | h
    · exact .inl ⟨_, .load c a, h, execLoad_ok h⟩
    · exact .inr ⟨_, execLoad_badAddr h⟩
  | write src dst =>
    rcases Nat.lt_or_ge src s.params.memCells with h | h
    · rcases Nat.lt_or_ge dst s.params.memCells with hd | hd
      · exact .inl ⟨_, .write src dst, hd, execWrite_ok h hd⟩
      · exact .inr ⟨_, execWrite_badDst h hd⟩
    · exact .inr ⟨_, execWrite_badSrc h⟩
  | read p d o =>
    rcases Nat.lt_or_ge p s.params.memCells with h | h
    · by_cases he : s.cell p + o < 0 ∨ (s.params.memCells : Int) ≤ s.cell p + o
      · exact .inr ⟨_, execRead_badEa h he⟩
      · rcases Nat.lt_or_ge d s.params.memCells with hd | hd
        · exact .inl ⟨_, .read p d o, hd, execRead_ok h (by omega) (by omega) hd⟩
        · exact .inr ⟨_, execRead_badDst h (by omega) (by omega) hd⟩
    · exact .inr ⟨_, execRead_badPtr h⟩
  | sqrt d p =>
    rcases Nat.lt_or_ge p s.params.memCells with h | h
    · by_cases he : s.cell p < 0 ∨ (s.params.memCells : Int) ≤ s.cell p
      · exact .inr ⟨_, execSqrt_badValueAddr h he⟩
      · rcases lt_or_ge (s.cell (s.cell p).toNat) 0 with hn | hn
        · exact .inr ⟨_, execSqrt_negative h (by omega) (by omega) hn⟩
        · rcases Nat.lt_or_ge d s.params.memCells with hd | hd
          · exact .inl ⟨_, .sqrt d p hn, hd, execSqrt_ok h (by omega) (by omega) hn hd⟩
          · exact .inr ⟨_, execSqrt_badDst h (by omega) (by omega) hn hd⟩
    · exact .inr ⟨_, execSqrt_badPtr h⟩

end Sys2Proof.Machine
end

