-- ==== Sys2Proof/Laws/Step.lean ====
section
/-! SUPPORT. The inversion of one step: the five things a step can do, each with all its conditions. -/

namespace Sys2Proof.Machine

theorem step_stopped {s : State} (h : s.status ≠ .run) : step s = .next s := by
  simp [step, (stopped_iff s).2 h]

theorem step_atEnd {s : State} (h : s.status = .run) (he : s.prog.length ≤ s.pc) : step s = .next s.enterHalt := by
  simp [step, (not_stopped_iff s).2 h, (atEnd_iff s).2 he]

theorem step_decodeFault {s : State} {f : DecodeFault} (h : s.status = .run) (hp : s.pc < s.prog.length)
    (hd : decode s.prog s.pc = .error f) : step s = .next (s.takeFault (Trap.ofDecode f)) := by
  have he : s.atEnd = false := by simp [State.atEnd, hp]
  simp [step, (not_stopped_iff s).2 h, he, State.fetch, hd]

theorem step_decoded {s : State} {i : Instr} {len : Nat} (h : s.status = .run) (hd : decode s.prog s.pc = .ok (i, len)) :
    step s = retire len (exec i s) := by
  have hb := decode_ok_bounds hd
  have he : s.atEnd = false := by simp [State.atEnd]; omega
  simp [step, (not_stopped_iff s).2 h, he, State.fetch, hd]

/-- Everything a step can do (40_sequencer_decoder.md R80). -/
theorem step_cases (s : State) :
    (s.status ≠ .run ∧ step s = .next s) ∨
    (s.status = .run ∧ s.prog.length ≤ s.pc ∧ step s = .next s.enterHalt) ∨
    (∃ f, s.status = .run ∧ s.pc < s.prog.length ∧ decode s.prog s.pc = .error f ∧
      step s = .next (s.takeFault (Trap.ofDecode f))) ∨
    (∃ i len e, s.status = .run ∧ decode s.prog s.pc = .ok (i, len) ∧ exec i s = .next (s.takeFault e) ∧
      step s = .next (s.takeFault e)) ∨
    (∃ i len v, s.status = .run ∧ decode s.prog s.pc = .ok (i, len) ∧ Written s i v ∧
      storeField i < s.params.memCells ∧ exec i s = .next { s with mem := s.mem.write (storeField i) v } ∧
      step s = .next { s with mem := s.mem.write (storeField i) v, pc := s.pc + len }) := by
  by_cases h : s.status = .run
  · rcases Nat.lt_or_ge s.pc s.prog.length with hp | hp
    · rcases hd : decode s.prog s.pc with f | ⟨i, len⟩
      · exact .inr (.inr (.inl ⟨f, h, hp, rfl, step_decodeFault h hp hd⟩))
      · rcases exec_cases i s with ⟨v, hw, hs, hx⟩ | ⟨e, hx⟩
        · refine .inr (.inr (.inr (.inr ⟨i, len, v, h, rfl, hw, hs, hx, ?_⟩)))
          have hst : State.stopped { s with mem := s.mem.write (storeField i) v } = false := (not_stopped_iff _).2 h
          rw [step_decoded h hd, hx, retire_next, hst]
          rfl
        · refine .inr (.inr (.inr (.inl ⟨i, len, e, h, rfl, hx, ?_⟩)))
          have hst : (s.takeFault e).stopped = true := by simp [stopped_iff]
          rw [step_decoded h hd, hx, retire_next, if_pos hst]
    · exact .inr (.inl ⟨h, hp, step_atEnd h hp⟩)
  · exact .inl ⟨h, step_stopped h⟩

/-- A step always answers a next state: nothing in this machine is refused or stops the model. -/
theorem step_next (s : State) : ∃ t, step s = .next t := by
  rcases step_cases s with ⟨-, h⟩ | ⟨-, -, h⟩ | ⟨f, -, -, -, h⟩ | ⟨i, len, e, -, -, -, h⟩ | ⟨i, len, v, -, -, -, -, -, h⟩ <;>
    exact ⟨_, h⟩

/-! ### Runs -/

@[simp] theorem runSteps_zero (s : State) : runSteps 0 s = .next s := rfl

/-- A run of one more step, on any machine of the host's interface. -/
theorem core_run_succ {M : Host.Core} {n : Nat} {s t : M.State} (h : M.step s = .next t) :
    M.run (n + 1) s = M.run n t := by
  simp only [Host.Core.run, h]

/-- A run of one more step. -/
theorem runSteps_succ {n : Nat} {s t : State} (h : step s = .next t) : runSteps (n + 1) s = runSteps n t :=
  core_run_succ (M := Sys2Proof.core) h

/-- The induction over a run, packaged once: what holds at the start and is kept by every step holds at the end. -/
theorem runSteps_induction {P : State → Prop} (hstep : ∀ s t, P s → step s = .next t → P t) :
    ∀ (n : Nat) {s t : State}, P s → runSteps n s = .next t → P t
  | 0, s, t, hs, h => by
    rw [runSteps_zero] at h
    cases h
    exact hs
  | n + 1, s, t, hs, h => by
    obtain ⟨u, hu⟩ := step_next s
    rw [runSteps_succ hu] at h
    exact runSteps_induction hstep n (hstep s u hs hu) h

end Sys2Proof.Machine
end

