-- ==== Sys2Proof/Laws/Fetch.lean ====
section
/-! SUPPORT. `withFetchWord` does what it is for: the next step fetches and runs exactly the word's instruction. -/

namespace Sys2Proof.Machine

/-- A table word's group is the bytes its decoding reads: the same opcode, and the same word. -/
theorem tableGroup_spec {nbits w : Nat} {i : Instr} (h : decodeTableWord nbits w = some i) :
    (tableGroup nbits w).length = i.opcode.byteLength ∧ wordOfBytes (tableGroup nbits w) % 128 = i.opcode.code ∧
      i = i.opcode.unpack (wordOfBytes (tableGroup nbits w)) := by
  unfold decodeTableWord at h
  split at h
  · next j len hd =>
    cases h
    obtain ⟨b, op, hb, hop, hlen, rfl, -⟩ := decode_ok_iff.1 hd
    have hbits : slice (w % 2 ^ nbits) 6 0 = opcodeBits b := by
      have hb' : b = BitVec.ofNat 8 (w % 2 ^ nbits) := by
        simpa [tableBytes, bytesOfWord] using hb.symm
      rw [hb', opcodeBits_eq, BitVec.toNat_ofNat, slice, Nat.shiftRight_zero]
      omega
    have hg : tableGroup nbits w = groupBytes (tableBytes nbits w) 0 op.byteLength := by
      simp only [tableGroup, hbits, hop, groupBytes, List.drop_zero]
    have hglen : (tableGroup nbits w).length = op.byteLength := by
      rw [hg, groupBytes, List.drop_zero, List.length_take]
      omega
    refine ⟨by rw [hglen, opcode_unpack], ?_, by rw [hg, opcode_unpack]⟩
    rw [opcode_unpack, ← ofCode_eq_some.1 hop]
    rcases hc : tableGroup nbits w with _ | ⟨c, cs⟩
    · rw [hc] at hglen
      rcases byteLength_cases op with hn | hn <;> simp [hn] at hglen
    · have hhead : (tableBytes nbits w)[0]? = some c := by
        have h0 := congrArg (fun l : List Byte => l[0]?) (hg.symm.trans hc)
        rcases byteLength_cases op with hn | hn <;> simpa [groupBytes, hn] using h0
      rw [wordOfBytes_cons_mod]
      rw [hb] at hhead
      cases hhead
      rfl
  · cases h

/-- The next step after `withFetchWord` decodes exactly the word's instruction. -/
theorem decode_withFetchWord (s : State) {nbits w : Nat} {i : Instr} (h : decodeTableWord nbits w = some i) :
    decode (s.withFetchWord nbits w).prog (s.withFetchWord nbits w).pc = .ok (i, i.byteLength) := by
  obtain ⟨hl, hc, hi⟩ := tableGroup_spec h
  have hlen : (s.prog.take s.pc ++ List.replicate (s.pc - s.prog.length) (0 : Byte)).length = s.pc := by
    simp only [List.length_append, List.length_take, List.length_replicate]
    omega
  have hd := decode_group (s.prog.take s.pc ++ List.replicate (s.pc - s.prog.length) (0 : Byte)) (tableGroup nbits w)
    (s.prog.drop (s.pc + (tableGroup nbits w).length)) hl hc
  rw [hlen, ← hi] at hd
  exact hd

/-- The next step after `withFetchWord` runs exactly the word's instruction. -/
theorem step_withFetchWord (s : State) {nbits w : Nat} {i : Instr} (h : decodeTableWord nbits w = some i) :
    step (s.withFetchWord nbits w) = retire i.byteLength (exec i (s.withFetchWord nbits w)) :=
  step_decoded rfl (decode_withFetchWord s h)

end Sys2Proof.Machine
end

