-- ==== Sys2Proof/Laws/PerInstr.lean ====
section
/-! SUPPORT. Statements about every instruction as syntax, one lemma a constructor. -/

namespace Sys2Proof.Laws.EncodeShape

/-- The shape of an instruction's group: as many bytes as its opcode says, the opcode in bits 6..0 of the first one,
and nothing above the last field (30_encoding.md R50, R52, R57). -/
def Statement (i : Instr) : Prop :=
  (encode i).length = i.byteLength ∧ encodeWord i % 128 = i.opcode.code ∧ encodeWord i < 2 ^ i.opcode.paddingLo

/-- A masked field shifted to its place lies below the end of its place (30_encoding.md R60). -/
theorem maskField_shift_lt {width off hi v : Nat} (h : off + width ≤ hi) : maskField width v <<< off < 2 ^ hi := by
  have hm : maskField width v < 2 ^ width := by
    rw [maskField, Nat.and_two_pow_sub_one_eq_mod]
    exact Nat.mod_lt _ (by positivity)
  rw [Nat.shiftLeft_eq]
  calc maskField width v * 2 ^ off < 2 ^ width * 2 ^ off := Nat.mul_lt_mul_of_pos_right hm (by positivity)
    _ = 2 ^ (off + width) := by rw [← Nat.pow_add, Nat.add_comm]
    _ ≤ 2 ^ hi := Nat.pow_le_pow_right (by decide) h

/-- Fields from bit 7 up leave the opcode bits alone. -/
theorem or_shift_mod {w v off : Nat} (h : 7 ≤ off) : (w ||| v <<< off) % 128 = w % 128 := by
  have h128 : (128 : Nat) = 2 ^ 7 := rfl
  rw [h128, Nat.or_mod_two_pow]
  have hz : v <<< off % 2 ^ 7 = 0 := by
    rw [Nat.shiftLeft_eq]
    exact Nat.mod_eq_zero_of_dvd (Dvd.dvd.mul_left (Nat.pow_dvd_pow 2 h) v)
  rw [hz, Nat.or_zero]

theorem load (const addr : Nat) : Statement (.load const addr) := by
  refine ⟨length_encode _, ?_, ?_⟩
  · simp only [encodeWord, or_shift_mod (show 7 ≤ 30 by decide), or_shift_mod (Nat.le_refl 7)]; rfl
  · change _ < 2 ^ 44
    exact Nat.or_lt_two_pow (Nat.or_lt_two_pow (by decide) (maskField_shift_lt (by decide)))
      (maskField_shift_lt (by decide))

theorem read (ptrAddr dstAddr offset : Nat) : Statement (.read ptrAddr dstAddr offset) := by
  refine ⟨length_encode _, ?_, ?_⟩
  · simp only [encodeWord, or_shift_mod (show 7 ≤ 35 by decide), or_shift_mod (show 7 ≤ 21 by decide),
      or_shift_mod (Nat.le_refl 7)]; rfl
  · change _ < 2 ^ 42
    exact Nat.or_lt_two_pow (Nat.or_lt_two_pow (Nat.or_lt_two_pow (by decide) (maskField_shift_lt (by decide)))
      (maskField_shift_lt (by decide))) (maskField_shift_lt (by decide))

theorem write (srcAddr dstAddr : Nat) : Statement (.write srcAddr dstAddr) := by
  refine ⟨length_encode _, ?_, ?_⟩
  · simp only [encodeWord, or_shift_mod (show 7 ≤ 21 by decide), or_shift_mod (Nat.le_refl 7)]; rfl
  · change _ < 2 ^ 35
    exact Nat.or_lt_two_pow (Nat.or_lt_two_pow (by decide) (maskField_shift_lt (by decide)))
      (maskField_shift_lt (by decide))

theorem sqrt (dstAddr ptrAddr : Nat) : Statement (.sqrt dstAddr ptrAddr) := by
  refine ⟨length_encode _, ?_, ?_⟩
  · simp only [encodeWord, or_shift_mod (show 7 ≤ 21 by decide), or_shift_mod (Nat.le_refl 7)]; rfl
  · change _ < 2 ^ 35
    exact Nat.or_lt_two_pow (Nat.or_lt_two_pow (by decide) (maskField_shift_lt (by decide)))
      (maskField_shift_lt (by decide))

end Sys2Proof.Laws.EncodeShape
end

