-- ==== Sys2Proof/Tests/Slice0.lean ====
section
/-! SUPPORT. The model's own tests. Expected results come from spec/95_test_vectors.md (the vector is named) or from the
rule cited. The last part shows, for every obligation with hypotheses, concrete data that meets them all together. -/

namespace Sys2Proof.Tests

open Sys2Proof Sys2Proof.Machine

/-- A machine of the default parameters at offset 0 of `prog`, with these cells. -/
def at0 (prog : List Byte) (mem : Memory) : State := { State.reset with prog := prog, mem := mem }

/-- One step answers a next state with this property. -/
def after (s : State) (p : State → Bool) : Bool :=
  match step s with
  | .next t => p t
  | .fault _ => false
  | .refused _ => false

/-- The fault record of a state: status, cause, `finfo`, and `pc`. -/
def record (t : State) : Status × Cause × Int × Nat := (t.status, t.cause, t.finfo, t.pc)

/-! ### WellFormed refuses each operand one past its field (30_encoding.md R59) -/

theorem test_wf_refuses_load_const : (Instr.load 8388608 0).wf = false := by decide
theorem test_wf_refuses_load_addr : (Instr.load 0 16384).wf = false := by decide
theorem test_wf_refuses_read_ptr : (Instr.read 16384 0 0).wf = false := by decide
theorem test_wf_refuses_read_dst : (Instr.read 0 16384 0).wf = false := by decide
theorem test_wf_refuses_read_offset : (Instr.read 0 0 128).wf = false := by decide
theorem test_wf_refuses_write_src : (Instr.write 16384 0).wf = false := by decide
theorem test_wf_refuses_write_dst : (Instr.write 0 16384).wf = false := by decide
theorem test_wf_refuses_sqrt_dst : (Instr.sqrt 16384 0).wf = false := by decide
theorem test_wf_refuses_sqrt_ptr : (Instr.sqrt 0 16384).wf = false := by decide
theorem test_wf_admits_largest_operands :
    (Instr.load 8388607 16383).wf = true ∧ (Instr.read 16383 16383 127).wf = true ∧
      (Instr.write 16383 16383).wf = true ∧ (Instr.sqrt 16383 16383).wf = true := by decide

/-! ### Words written out bit by bit from the format tables (30_encoding.md R53 to R56), padding first -/

/-- ENC1: padding, addr = 70, const = 522, opcode 118. -/
theorem test_word_load :
    decodeTableWord 48 0b0000_00000001000110_00000000000001000001010_1110110 = some (.load 522 70) := by decide
/-- ENC2: padding, offset = 53, dst_addr = 771, ptr_addr = 499, opcode 6. -/
theorem test_word_read :
    decodeTableWord 48 0b000000_0110101_00001100000011_00000111110011_0000110 = some (.read 499 771 53) := by decide
/-- ENC3: padding, dst_addr = 336, src_addr = 229, opcode 44. -/
theorem test_word_write :
    decodeTableWord 40 0b00000_00000101010000_00000011100101_0101100 = some (.write 229 336) := by decide
/-- ENC4: padding, ptr_addr = 863, dst_addr = 807, opcode 57. -/
theorem test_word_sqrt :
    decodeTableWord 40 0b00000_00001101011111_00001100100111_0111001 = some (.sqrt 807 863) := by decide
/-- Opcode 99 is illegal (S8, R63). -/
theorem test_word_illegal : decodeTableWord 48 0b1100011 = none := by decide
/-- ENC1 to ENC4, encoder side. -/
theorem test_encode_source_lines :
    encode (.load 522 70) = [0x76, 0x05, 0x01, 0x80, 0x11, 0x00] ∧
    encode (.read 499 771 53) = [0x86, 0xF9, 0x60, 0x60, 0xA8, 0x01] ∧
    encode (.write 229 336) = [0xAC, 0x72, 0x00, 0x2A, 0x00] ∧
    encode (.sqrt 807 863) = [0xB9, 0x93, 0xE1, 0x6B, 0x00] := by decide
/-- S2 (corrected, C1) and ENC9: what masking does to a wide operand. -/
theorem test_encode_masks :
    encode (.load 2000000 20000) = [0x76, 0x40, 0x42, 0x0F, 0x88, 0x03] ∧
    encode (.load 10000000 5) = [0x76, 0x40, 0x4B, 0x4C, 0x01, 0x00] := by decide
/-- DEC6: padding bits are ignored. -/
theorem test_decode_ignores_padding :
    decode [0xF6, 0xFF, 0xFF, 0xFF, 0xFF, 0xFF] 0 = .ok (.load 8388607 16383, 6) := by rfl
/-- DEC15, DEC17: an illegal opcode mid-stream, and with bit 7 of its byte set. -/
theorem test_decode_unknown_opcode :
    decode [0x76, 0x32, 0x00, 0x40, 0x01, 0x00] 1 = .error (.unknownOpcode 50) ∧
    decode [0xE3, 0x00, 0x00, 0x00, 0x00, 0x00] 0 = .error (.unknownOpcode 99) := ⟨by rfl, by rfl⟩
/-- DEC21, DEC23, DEC25: a group one byte short, and an offset at the end. -/
theorem test_decode_unexpected_end :
    decode [0x76, 0x05, 0x01, 0x80, 0x11] 0 = .error (.unexpectedEndOfProgram 6) ∧
    decode [0xB9, 0x93, 0xE1, 0x6B] 0 = .error (.unexpectedEndOfProgram 5) ∧
    decode [0x76, 0x05, 0x01, 0x80, 0x11, 0x00] 6 = .error (.unexpectedEndOfProgram 0) := ⟨by rfl, by rfl, by rfl⟩

/-! ### One step of each instruction -/

/-- LD4: the last cell of the default Memory. -/
theorem test_load_last_cell :
    after (at0 [0xF6, 0x00, 0x00, 0xC0, 0xFF, 0x00] [])
      (fun t => t.mem == [(1023, 1)] && record t == (.run, .none, 0, 6)) = true := by decide
/-- LD5: one past it. -/
theorem test_load_past_last_cell :
    after (at0 [0xF6, 0x00, 0x00, 0x00, 0x00, 0x01] [])
      (fun t => t.mem == [] && record t == (.fault, .addressOutOfRange, 1024, 0)) = true := by decide
/-- WR3: a negative value is copied whole, from the first operand to the second. -/
theorem test_write_copies_negative :
    after (at0 [0x2C, 0x00, 0x20, 0x00, 0x00] [(0, -7)])
      (fun t => t.mem == [(0, -7), (1, -7)] && record t == (.run, .none, 0, 5)) = true := by decide
/-- WR4: both addresses bad, the source is reported. -/
theorem test_write_reports_source_first :
    after (at0 [0x2C, 0xC4, 0x09, 0xEE, 0x02] [])
      (fun t => t.mem == [] && record t == (.fault, .addressOutOfRange, 5000, 0)) = true := by decide
/-- RD3: a negative pointer whose sum with the offset is in range. -/
theorem test_read_negative_pointer :
    after (at0 [0x06, 0x00, 0x20, 0x00, 0x28, 0x00] [(0, -3), (2, 42)])
      (fun t => t.mem == [(0, -3), (1, 42), (2, 42)] && record t == (.run, .none, 0, 6)) = true := by decide
/-- RD5: the sum does not wrap and is reported as it is. -/
theorem test_read_sum_does_not_wrap :
    after (at0 [0x06, 0x00, 0x20, 0x00, 0xF8, 0x03] [(0, 2147483647)])
      (fun t => t.mem == [(0, 2147483647)] && record t == (.fault, .addressOutOfRange, 2147483774, 0)) = true := by decide
/-- SQ12: the largest 32-bit cell value. -/
theorem test_sqrt_largest_value :
    after (at0 [0x39, 0x01, 0x00, 0x00, 0x00] [(0, 1), (1, 2147483647)])
      (fun t => t.mem == [(0, 1), (1, 2147483647), (2, 46340)] && record t == (.run, .none, 0, 5)) = true := by decide
/-- SQ7: a negative value and a bad destination, `NegativeOperand` wins. -/
theorem test_sqrt_negative_before_destination :
    after (at0 [0x39, 0xC4, 0x09, 0x00, 0x00] [(0, 1), (1, -1)])
      (fun t => t.mem == [(0, 1), (1, -1)] && record t == (.fault, .negativeOperand, -1, 0)) = true := by decide

/-! ### The sequencer and the host port -/

/-- SEQ1: the empty Program halts at its first step, from reset. -/
theorem test_empty_program_halts : after State.reset (fun t => record t == (.halt, .none, 0, 0)) = true := by decide
/-- SEQ6: one byte with an illegal opcode is `UnknownOpcode`, not a cut group (R130). -/
theorem test_unknown_opcode_before_cut_group :
    after (at0 [0x63] []) (fun t => record t == (.fault, .unknownOpcode, 99, 0)) = true := by decide
/-- SEQ5: a cut group with a bad address is `UnexpectedEndOfProgram` (R130). -/
theorem test_cut_group_before_address :
    after (at0 [0xF6, 0x00, 0x00, 0x00, 0xE2] []) (fun t => record t == (.fault, .unexpectedEndOfProgram, 6, 0)) = true := by
  decide
/-- A table word placed where the next step fetches it is what that step runs (`WRITE 0, 1`, all padding bits set). -/
theorem test_withFetchWord_runs_the_word :
    after (State.withFetchWord { State.reset with mem := [(0, 9)] } 40 0xF80020002C)
      (fun t => t.mem == [(0, 9), (1, 9)] && record t == (.run, .none, 0, 5)) = true := by decide
/-- R156, U11: a preload one past Memory and a value one past the cell range are refused. -/
theorem test_launch_refuses :
    launch Params.standard [] [(1024, 0)] = .refused .preloadAddress ∧
    launch Params.standard [] [(-1, 0)] = .refused .preloadAddress ∧
    launch Params.standard [] [(0, 2147483648)] = .refused .preloadValue ∧
    launch { Params.standard with cellBits := 23 } [] [] = .refused .badParameters ∧
    launch { Params.standard with pcBits := 1 } [0x63, 0x63] [] = .refused .programTooLong :=
  ⟨by rfl, by rfl, by rfl, by rfl, by rfl⟩

/-! ### Witnesses: the hypotheses of each obligation, met together -/

/-- `LOAD 1, 1023` (LD4) from zeroed Memory. -/
def sLoad : State := at0 [0xF6, 0x00, 0x00, 0xC0, 0xFF, 0x00] []
/-- `WRITE 1023, 0` (WR6). -/
def sWrite : State := at0 [0xAC, 0xFF, 0x01, 0x00, 0x00] [(1023, 4)]
/-- `READ 0, 1, 127` with the sum on the last cell (RD6, its third instruction). -/
def sRead : State := at0 [0x06, 0x00, 0x20, 0x00, 0xF8, 0x03] [(0, 896), (1023, 6)]
/-- `SQRT 2, 0` (SQ1). -/
def sSqrt : State := at0 [0x39, 0x01, 0x00, 0x00, 0x00] [(0, 1), (1, 81)]
/-- `LOAD 1, 1024` (LD5): the step faults. -/
def sBad : State := at0 [0xF6, 0x00, 0x00, 0x00, 0x00, 0x01] []
/-- A machine that has halted. -/
def sHalt : State := State.reset.enterHalt

theorem test_meets_LaunchSucceedsExactlyOnLegalStates :
    ∃ s, launch Params.standard [0x63] [(0, -2147483648), (1023, 2147483647), (0, 5)] = .next s := ⟨_, rfl⟩
theorem test_meets_LaunchStateMeetsInvariant : ∃ s, launch Params.standard [] [] = .next s := ⟨_, rfl⟩
theorem test_meets_DumpListsRangeAscendingAfterTheRun :
    State.reset.status = .run ∧ sHalt.status ≠ .run ∧ 0 ≤ 1023 ∧ 1023 < sHalt.params.memCells := by decide
/-- Every field and the padding at their largest values. -/
theorem test_meets_GroupsFollowTheFormatsByteByByte :
    8388607 < 2 ^ 23 ∧ 16383 < 2 ^ 14 ∧ 127 < 2 ^ 7 ∧
    groupCA 8388607 16383 15 = [0xF6, 0xFF, 0xFF, 0xFF, 0xFF, 0xFF] ∧
    groupAAO 16383 16383 127 63 = [0x86, 0xFF, 0xFF, 0xFF, 0xFF, 0xFF] := by decide
theorem test_meets_DecodeOfEncodeMasksOperands :
    decode [0x2C, 0x00, 0x20, 0x00, 0x00] 0 = .ok (.write 0 1, [0x2C, 0x00, 0x20, 0x00, 0x00].length) ∧
    decode [0x2C, 0x00, 0x20, 0x00, 0xF8] 0 = .ok (.write 0 1, [0x2C, 0x00, 0x20, 0x00, 0xF8].length) := ⟨by rfl, by rfl⟩
/-- DEC8 against ENC12: `READ` with its padding set and clear. -/
theorem test_meets_PaddingBitsAreIgnored :
    ([0x06, 0x00, 0x20, 0x00, 0x18, 0xFC] : List Byte).length = Opcode.read.byteLength ∧
    ([0x06, 0x00, 0x20, 0x00, 0x18, 0x00] : List Byte).length = Opcode.read.byteLength ∧
    wordOfBytes [0x06, 0x00, 0x20, 0x00, 0x18, 0xFC] % 128 = Opcode.read.code ∧
    wordOfBytes [0x06, 0x00, 0x20, 0x00, 0x18, 0x00] % 2 ^ Opcode.read.paddingLo =
      wordOfBytes [0x06, 0x00, 0x20, 0x00, 0x18, 0xFC] % 2 ^ Opcode.read.paddingLo := by decide
/-- ENC11: every field at its largest; the last operand and the last bit of its field. -/
theorem test_meets_OperandsAreTheFieldBits :
    decode [0x86, 0xFF, 0xFF, 0xFF, 0xFF, 0x03] 0 = .ok (.read 16383 16383 127, 6) ∧
    (Instr.read 16383 16383 127).operands[2]? = some 127 ∧ (fieldTable .read)[2]? = some (7, 35) ∧ 6 < 7 :=
  ⟨by rfl, by decide, by decide, by decide⟩
theorem test_meets_DecodeReadsOnlyItsGroup :
    decode [0x2C, 0x00, 0x20, 0x00, 0x00, 0x63] 0 = .ok (.write 0 1, 5) ∧
    ∀ k, k < 5 → ([0x2C, 0x00, 0x20, 0x00, 0x00] : List Byte)[0 + k]? =
      ([0x2C, 0x00, 0x20, 0x00, 0x00, 0x63] : List Byte)[0 + k]? := ⟨by rfl, by decide⟩
theorem test_meets_DecodedInstructionIsWellFormed :
    decode [0x86, 0xFF, 0xFF, 0xFF, 0xFF, 0x03] 0 = .ok (.read 16383 16383 127, 6) := by rfl
theorem test_meets_StepFollowsTheSequencer :
    sHalt.status ≠ .run ∧ (State.reset.status = .run ∧ State.reset.prog.length ≤ State.reset.pc) ∧
    (sLoad.status = .run ∧ sLoad.pc < sLoad.prog.length ∧ decode sLoad.prog sLoad.pc = .ok (.load 1 1023, 6)) ∧
    decode sBad.prog sBad.pc = .ok (.load 1 1024, 6) ∧
    decode (at0 [0x63] []).prog 0 = .error (.unknownOpcode 99) ∧
    decode (at0 [0x76] []).prog 0 = .error (.unexpectedEndOfProgram 6) :=
  ⟨by decide, by decide, ⟨by decide, by decide, by rfl⟩, by rfl, by rfl, by rfl⟩
theorem test_meets_GroupAtPcIsExecuted :
    (sLoad.status = .run ∧ (Instr.load 1 1023).wf = true ∧
      (sLoad.prog.drop sLoad.pc).take (Instr.load 1 1023).byteLength = encode (.load 1 1023) ∧
      ∃ t, exec (.load 1 1023) sLoad = .next t ∧ t.status = .run) ∧
    (sBad.status = .run ∧ (Instr.load 1 1024).wf = true ∧
      (sBad.prog.drop sBad.pc).take (Instr.load 1 1024).byteLength = encode (.load 1 1024) ∧
      ∃ t, exec (.load 1 1024) sBad = .next t ∧ t.status = .fault) :=
  ⟨⟨by decide, by decide, by decide, _, rfl, rfl⟩, ⟨by decide, by decide, by decide, _, rfl, rfl⟩⟩
theorem test_meets_HaltTransitionExactlyAtTheEnd : State.reset.status = .run ∧ State.reset.Inv :=
  ⟨rfl, ⟨by decide, by decide, by decide, by decide, by decide, by decide, by decide⟩⟩
theorem test_meets_StoppedMachineIsFrozen :
    sHalt.status ≠ .run ∧ ∃ t, step State.reset = .next t ∧ t.status ≠ State.reset.status :=
  ⟨by decide, _, rfl, by decide⟩
theorem test_meets_PcGrowsOnlyByTheGroupLength :
    (sSqrt.status = .run ∧ ∃ t, step sSqrt = .next t ∧ t.status = .run) ∧
    (sBad.status = .run ∧ ∃ t, step sBad = .next t ∧ t.status ≠ .run) :=
  ⟨⟨rfl, _, rfl, rfl⟩, ⟨rfl, _, rfl, by decide⟩⟩
/-- Also of `FaultKeepsNothingOfTheInstruction`, in both stages. -/
theorem test_meets_FaultKeepsNothingOfTheInstruction :
    (sBad.status = .run ∧ ∃ t, step sBad = .next t ∧ t.status = .fault) ∧
    ((at0 [0x63] []).status = .run ∧ ∃ t, step (at0 [0x63] []) = .next t ∧ t.status = .fault) :=
  ⟨⟨rfl, _, rfl, rfl⟩, ⟨rfl, _, rfl, rfl⟩⟩

theorem test_meets_LoadStoresItsConstant :
    (sLoad.mem.wf = true ∧ 1023 < sLoad.params.memCells ∧ sLoad.status = .run ∧
      decode sLoad.prog sLoad.pc = .ok (.load 1 1023, 6)) ∧
    (sBad.mem.wf = true ∧ sBad.params.memCells ≤ 1024) ∧
    ((2 ^ 48 - 10 : Nat) < 2 ^ 48 ∧ (2 ^ 48 - 10 : Nat) % 128 = 118) :=
  ⟨⟨by decide, by decide, by decide, by rfl⟩, by decide, by decide⟩
theorem test_meets_WriteCopiesOneCell :
    (sWrite.mem.wf = true ∧ 1023 < sWrite.params.memCells ∧ 0 < sWrite.params.memCells ∧ sWrite.status = .run ∧
      decode sWrite.prog sWrite.pc = .ok (.write 1023 0, 5)) ∧
    sWrite.params.memCells ≤ 1024 ∧ (44 < 2 ^ 40 ∧ 44 % 128 = 44) :=
  ⟨⟨by decide, by decide, by decide, by decide, by rfl⟩, by decide, by decide⟩
/-- Completion with the sum on the last cell; a bad pointer cell; the sum one past the end and one below 0; a bad
destination. -/
theorem test_meets_ReadLoadsThroughPointerAndOffset :
    (sRead.mem.wf = true ∧ 0 < sRead.params.memCells ∧ 0 ≤ sRead.cell 0 + 127 ∧
      sRead.cell 0 + 127 < (sRead.params.memCells : Int) ∧ 1 < sRead.params.memCells ∧ sRead.status = .run ∧
      decode sRead.prog sRead.pc = .ok (.read 0 1 127, 6) ∧ ((1023 : Nat) : Int) = sRead.cell 0 + 127) ∧
    sRead.params.memCells ≤ 1024 ∧
    ((at0 [] [(0, 897)]).mem.wf = true ∧ ((at0 [] [(0, 897)]).params.memCells : Int) ≤ (at0 [] [(0, 897)]).cell 0 + 127) ∧
    ((at0 [] [(0, -3)]).mem.wf = true ∧ (at0 [] [(0, -3)]).cell 0 + 2 < 0) ∧ (6 < 2 ^ 48 ∧ 6 % 128 = 6) :=
  ⟨⟨by decide, by decide, by decide, by decide, by decide, by decide, by rfl, by decide⟩, by decide, by decide,
    by decide, by decide⟩
/-- Completion; a bad pointer cell; a value address one past the end and one below 0; a negative value; a bad
destination. -/
theorem test_meets_SqrtStoresTheFloorRoot :
    (sSqrt.mem.wf = true ∧ 0 < sSqrt.params.memCells ∧ ((1 : Nat) : Int) = sSqrt.cell 0 ∧ 1 < sSqrt.params.memCells ∧
      0 ≤ sSqrt.cell 1 ∧ 2 < sSqrt.params.memCells ∧ sSqrt.status = .run ∧
      decode sSqrt.prog sSqrt.pc = .ok (.sqrt 2 0, 5)) ∧
    sSqrt.params.memCells ≤ 1024 ∧
    ((at0 [] [(0, 1024)]).mem.wf = true ∧ ((at0 [] [(0, 1024)]).params.memCells : Int) ≤ (at0 [] [(0, 1024)]).cell 0) ∧
    ((at0 [] [(0, -1)]).mem.wf = true ∧ (at0 [] [(0, -1)]).cell 0 < 0) ∧
    ((at0 [] [(0, 1), (1, -1)]).mem.wf = true ∧ ((1 : Nat) : Int) = (at0 [] [(0, 1), (1, -1)]).cell 0 ∧
      (at0 [] [(0, 1), (1, -1)]).cell 1 < 0) ∧ (57 < 2 ^ 40 ∧ 57 % 128 = 57) :=
  ⟨⟨by decide, by decide, by decide, by decide, by decide, by decide, by decide, by rfl⟩, by decide, by decide,
    by decide, by decide, by decide⟩
theorem test_meets_EveryInstructionKeepsItsFrame :
    sSqrt.mem.wf = true ∧ (∃ t, exec (.sqrt 2 0) sSqrt = .next t ∧ t.status = .run) ∧
    (∃ t, exec (.sqrt 1024 0) sSqrt = .next t ∧ t.status = .fault) := ⟨by decide, ⟨_, rfl, rfl⟩, _, rfl, rfl⟩
/-- `WRITE a, a`; `READ` through cell 0 onto its own address; a pointer that points at itself; `SQRT` through cell 0. -/
theorem test_meets_OverlappingOperandsReadBeforeWrite :
    sRead.mem.wf = true ∧ 1023 < sRead.params.memCells ∧ 0 < sRead.params.memCells ∧
    ((1023 : Nat) : Int) = sRead.cell 0 + 127 ∧ (at0 [] [(5, 5)]).mem.wf = true ∧
    (at0 [] [(5, 5)]).cell 5 + 0 = 5 ∧ 5 < (at0 [] [(5, 5)]).params.memCells ∧
    sSqrt.mem.wf = true ∧ ((1 : Nat) : Int) = sSqrt.cell 0 ∧ 1 < sSqrt.params.memCells ∧ 0 ≤ sSqrt.cell 1 := by decide
theorem test_meets_FirstFailingCheckIsReported :
    firstFailure sSqrt (.sqrt 1024 0) = some (.addressOutOfRange 1024) ∧
    firstFailure (at0 [] [(0, 1), (1, -1)]) (.sqrt 5000 0) = some (.negativeOperand (-1)) ∧
    firstFailure sSqrt (.sqrt 1023 0) = none := by decide
/-- A negative value is met, and so is zero, which is not negative; and the two ends of the cell range. -/
theorem test_meets_NegativeOperandExactlyOnNegativeRoot :
    (∃ t, exec (.sqrt 2 0) (at0 [] [(0, 1), (1, -1)]) = .next t ∧ t.cause = .negativeOperand) ∧
    (∃ t, exec (.sqrt 2 0) (at0 [] [(0, 1)]) = .next t ∧ t.cause = .none) ∧
    (at0 [] [(0, 1), (1, -1)]).cause ≠ .negativeOperand ∧ Params.standard.valid = true ∧
    Params.standard.holdsValue (-2147483648) = true ∧ Params.standard.holdsValue 2147483647 = true :=
  ⟨⟨_, rfl, rfl⟩, ⟨_, rfl, rfl⟩, by decide, by decide, by decide, by decide⟩
theorem test_meets_IsqrtHasTheListedProperties : 1 ≤ 1 ∧ (3 ≤ 4 ∧ isqrt 3 = 1 ∧ isqrt 4 = 2) ∧ 24 ≤ 24 := by decide
theorem test_meets_DigitAlgorithmComputesIsqrt :
    24 ≤ 32 ∧ 2147483647 < 2 ^ (32 - 1) ∧ digitSqrt 32 2147483647 = 46340 := by decide

/-- Of `StepKeepsTheInvariant`, on a step that completes and one that faults. -/
theorem test_meets_StepKeepsTheInvariant :
    (sSqrt.Inv ∧ ∃ t, step sSqrt = .next t ∧ t.status = .run) ∧ (sBad.Inv ∧ ∃ t, step sBad = .next t ∧ t.status = .fault) :=
  ⟨⟨⟨by decide, by decide, by decide, by decide, by decide, by decide, by decide⟩, _, rfl, rfl⟩,
    ⟨⟨by decide, by decide, by decide, by decide, by decide, by decide, by decide⟩, _, rfl, rfl⟩⟩
theorem test_meets_PcStaysOnABoundary : Boundary sSqrt.prog sSqrt.pc ∧ ∃ t, step sSqrt = .next t ∧ t.pc = 5 :=
  ⟨.start, _, rfl, rfl⟩
theorem test_meets_StepKeepsTheFaultRecordTrue :
    (sBad.status ≠ .fault → sBad.cause = .none) ∧ sBad.faultRecord ∧ ∃ t, step sBad = .next t ∧ t.finfo = 1024 :=
  ⟨by decide, rfl, _, rfl, rfl⟩
theorem test_meets_NoDataOverflow :
    (sSqrt.params.valid = true ∧ sSqrt.mem.bounded sSqrt.params = true ∧ ∃ t, step sSqrt = .next t) ∧
    ∃ s t, launch Params.standard [0xF6, 0xFF, 0xFF, 0x3F, 0x00, 0x00] [] = .next s ∧ runSteps 1 s = .next t ∧
      t.cell 0 = 8388607 :=
  ⟨⟨by decide, by decide, _, rfl⟩, _, _, rfl, rfl, rfl⟩
theorem test_meets_RunEndsWithinTheBound : sSqrt.status = .run ∧ ∃ t, step sSqrt = .next t ∧ t.pc = sSqrt.pc + 5 :=
  ⟨rfl, _, rfl, rfl⟩
theorem test_meets_RunExecutesTheListingInOrder :
    (sSqrt.status = .run ∧ sSqrt.pc = 0 ∧ decodeProgram sSqrt.prog = .ok [.sqrt 2 0]) ∧
    (State.reset.status = .run ∧ State.reset.pc = 0 ∧ decodeProgram State.reset.prog = .ok []) :=
  ⟨⟨rfl, rfl, by rfl⟩, rfl, rfl, by rfl⟩
theorem test_meets_CleanEndExecutedEverything :
    sSqrt.status = .run ∧ sSqrt.pc = 0 ∧ sSqrt.cause = .none ∧ ∃ t, runSteps 2 sSqrt = .next t ∧ t.status = .halt :=
  ⟨rfl, rfl, rfl, _, rfl, rfl⟩
theorem test_meets_RunWritesOnlyNamedCells :
    sLoad.mem.wf = true ∧ ∃ t, runSteps 1 sLoad = .next t ∧ t.cell 1023 ≠ sLoad.cell 1023 := ⟨by decide, _, rfl, by decide⟩
theorem test_meets_FetchNeverSeesAStore : ∃ t, runSteps 2 sLoad = .next t ∧ t.mem ≠ sLoad.mem := ⟨_, rfl, by decide⟩
theorem test_meets_FaultRecordIsNeverRead : ∃ t, step sBad = .next t ∧ t.finfo = 1024 := ⟨_, rfl, rfl⟩

end Sys2Proof.Tests
end

section
/-! PROOFS. The transitions of `status` (10_state.md R20). -/

namespace Sys2Proof.Proofs

open Sys2Proof.Machine

/-- One step keeps `status`, or takes a running machine to `HALT` or `FAULT` (10_state.md R20). -/
theorem step_status_cases {s t : State} (hstep : step s = .next t) :
    t.status = s.status ∨ (s.status = .run ∧ (t.status = .halt ∨ t.status = .fault)) := by
  rcases step_cases s with ⟨-, hs⟩ | ⟨hrun, -, hs⟩ | ⟨f, hrun, -, -, hs⟩ | ⟨i, len, e, hrun, -, -, hs⟩ |
    ⟨i, len, v, -, -, -, -, -, hs⟩ <;> cases hs.symm.trans hstep
  case inl => exact .inl rfl
  case inr.inl => exact .inr ⟨hrun, .inl (enterHalt_status s)⟩
  case inr.inr.inl => exact .inr ⟨hrun, .inr (takeFault_status s _)⟩
  case inr.inr.inr.inl => exact .inr ⟨hrun, .inr (takeFault_status s e)⟩
  case inr.inr.inr.inr => exact .inl rfl

/-- A stopped machine answers any number of steps with the state it stopped in. -/
theorem runSteps_stopped {s : State} (h : s.status ≠ .run) : ∀ n : Nat, runSteps n s = .next s
  | 0 => runSteps_zero s
  | n + 1 => (runSteps_succ (step_stopped h)).trans (runSteps_stopped h n)

/-- Settles O20: each of the five things a step can do keeps `status` or stops a running machine, and the stopped
machine's step is the identity, so by induction its run of any length is. -/
theorem stoppedMachineIsFrozen : Obligations.StoppedMachineIsFrozen := by
  refine ⟨fun s => ?_, fun s n h => runSteps_stopped h n⟩
  obtain ⟨t, ht⟩ := step_next s
  exact ⟨t, ht, (step_status_cases ht).resolve_left⟩

end Sys2Proof.Proofs
end

section
/-! PROOFS. The Program is read-only to the machine (20_memory.md R46). -/

namespace Sys2Proof.Proofs

open Sys2Proof.Machine

/-- No step touches the Program or the parameters: it moves `pc`, stores to Memory, halts or records a fault. -/
theorem step_keeps_prog_params {s t : State} (hstep : step s = .next t) : t.prog = s.prog ∧ t.params = s.params := by
  rcases step_cases s with ⟨-, hs⟩ | ⟨-, -, hs⟩ | ⟨f, -, -, -, hs⟩ | ⟨i, len, e, -, -, -, hs⟩ |
    ⟨i, len, v, -, -, -, -, -, hs⟩ <;> cases hs.symm.trans hstep
  case inl => exact ⟨rfl, rfl⟩
  case inr.inl => exact ⟨enterHalt_prog s, enterHalt_params s⟩
  case inr.inr.inl => exact ⟨takeFault_prog s _, takeFault_params s _⟩
  case inr.inr.inr.inl => exact ⟨takeFault_prog s e, takeFault_params s e⟩
  case inr.inr.inr.inr => exact ⟨rfl, rfl⟩

/-- A run of any length keeps the Program and the parameters. -/
theorem runSteps_keeps_prog_params {n : Nat} {s t : State} (hrun : runSteps n s = .next t) :
    t.prog = s.prog ∧ t.params = s.params := by
  refine runSteps_induction (P := fun u => u.prog = s.prog ∧ u.params = s.params) ?_ n ⟨rfl, rfl⟩ hrun
  rintro u v ⟨hprog, hparams⟩ hstep
  obtain ⟨hprog', hparams'⟩ := step_keeps_prog_params hstep
  exact ⟨hprog'.trans hprog, hparams'.trans hparams⟩

/-- Settles O42: the run keeps the Program by induction on its steps, and the decoder reads nothing but the Program. -/
theorem fetchNeverSeesAStore : Obligations.FetchNeverSeesAStore := by
  intro s t n hrun
  obtain ⟨hprog, hparams⟩ := runSteps_keeps_prog_params hrun
  exact ⟨hprog, hparams, fun o => by rw [hprog]⟩

end Sys2Proof.Proofs
end

section
/-! PROOFS. The encoder and the decoder are inverse to one another below the padding (30_encoding.md R60, R61, R64). -/

namespace Sys2Proof.Proofs

/-! ### Slices, operands and fields in arithmetic form -/

/-- A slice is a quotient cut to the slice's width (00_scope.md R5). -/
theorem slice_eq_div_mod (v hi lo : Nat) : slice v hi lo = v / 2 ^ lo % 2 ^ (hi - lo + 1) := by
  rw [slice, Nat.shiftRight_eq_div_pow]

theorem slice_zero_eq_mod (v hi : Nat) : slice v hi 0 = v % 2 ^ (hi + 1) := by
  rw [slice, Nat.shiftRight_zero, Nat.sub_zero]

/-- A slice is less than its width allows, so what stands beside it in a byte does not overflow the byte. -/
theorem slice_lt (v hi lo : Nat) : slice v hi lo < 2 ^ (hi - lo + 1) := Nat.mod_lt _ (by positivity)

theorem unpack_load (w : Nat) : Opcode.load.unpack w = .load (w / 2 ^ 7 % 2 ^ 23) (w / 2 ^ 30 % 2 ^ 14) := by
  simp only [Opcode.unpack, slice_eq_div_mod]

theorem unpack_read (w : Nat) :
    Opcode.read.unpack w = .read (w / 2 ^ 7 % 2 ^ 14) (w / 2 ^ 21 % 2 ^ 14) (w / 2 ^ 35 % 2 ^ 7) := by
  simp only [Opcode.unpack, slice_eq_div_mod]

theorem unpack_write (w : Nat) : Opcode.write.unpack w = .write (w / 2 ^ 7 % 2 ^ 14) (w / 2 ^ 21 % 2 ^ 14) := by
  simp only [Opcode.unpack, slice_eq_div_mod]

theorem unpack_sqrt (w : Nat) : Opcode.sqrt.unpack w = .sqrt (w / 2 ^ 7 % 2 ^ 14) (w / 2 ^ 21 % 2 ^ 14) := by
  simp only [Opcode.unpack, slice_eq_div_mod]

theorem maskFields_load (const addr : Nat) :
    (Instr.load const addr).maskFields = .load (const % 2 ^ 23) (addr % 2 ^ 14) := by
  simp only [Instr.maskFields, maskField_eq_mod]

theorem maskFields_read (ptrAddr dstAddr offset : Nat) :
    (Instr.read ptrAddr dstAddr offset).maskFields = .read (ptrAddr % 2 ^ 14) (dstAddr % 2 ^ 14) (offset % 2 ^ 7) := by
  simp only [Instr.maskFields, maskField_eq_mod]

theorem maskFields_write (srcAddr dstAddr : Nat) :
    (Instr.write srcAddr dstAddr).maskFields = .write (srcAddr % 2 ^ 14) (dstAddr % 2 ^ 14) := by
  simp only [Instr.maskFields, maskField_eq_mod]

theorem maskFields_sqrt (dstAddr ptrAddr : Nat) :
    (Instr.sqrt dstAddr ptrAddr).maskFields = .sqrt (dstAddr % 2 ^ 14) (ptrAddr % 2 ^ 14) := by
  simp only [Instr.maskFields, maskField_eq_mod]

@[simp] theorem opcode_maskFields (i : Instr) : i.maskFields.opcode = i.opcode := by
  cases i <;> rfl

/-- Masking reduces each operand modulo the size of its field in R51's table. -/
theorem operands_maskFields (i : Instr) :
    i.maskFields.operands = List.zipWith (fun x field => x % 2 ^ field.1) i.operands (Machine.fieldTable i.opcode) := by
  cases i with
  | load const addr => rw [maskFields_load]; rfl
  | read ptrAddr dstAddr offset => rw [maskFields_read]; rfl
  | write srcAddr dstAddr => rw [maskFields_write]; rfl
  | sqrt dstAddr ptrAddr => rw [maskFields_sqrt]; rfl

theorem wf_load_iff {const addr : Nat} : (Instr.load const addr).wf = true ↔ const < 2 ^ 23 ∧ addr < 2 ^ 14 := by
  simp only [Instr.wf, fitsField, Bool.and_eq_true, decide_eq_true_eq]

theorem wf_read_iff {ptrAddr dstAddr offset : Nat} :
    (Instr.read ptrAddr dstAddr offset).wf = true ↔ (ptrAddr < 2 ^ 14 ∧ dstAddr < 2 ^ 14) ∧ offset < 2 ^ 7 := by
  simp only [Instr.wf, fitsField, Bool.and_eq_true, decide_eq_true_eq]

theorem wf_write_iff {srcAddr dstAddr : Nat} :
    (Instr.write srcAddr dstAddr).wf = true ↔ srcAddr < 2 ^ 14 ∧ dstAddr < 2 ^ 14 := by
  simp only [Instr.wf, fitsField, Bool.and_eq_true, decide_eq_true_eq]

theorem wf_sqrt_iff {dstAddr ptrAddr : Nat} :
    (Instr.sqrt dstAddr ptrAddr).wf = true ↔ dstAddr < 2 ^ 14 ∧ ptrAddr < 2 ^ 14 := by
  simp only [Instr.wf, fitsField, Bool.and_eq_true, decide_eq_true_eq]

/-- Masking is the identity on operands that fit their fields (30_encoding.md R59). -/
theorem maskFields_of_wf {i : Instr} (h : i.wf = true) : i.maskFields = i := by
  cases i with
  | load const addr =>
    obtain ⟨hc, ha⟩ := wf_load_iff.1 h
    rw [maskFields_load, Nat.mod_eq_of_lt hc, Nat.mod_eq_of_lt ha]
  | read ptrAddr dstAddr offset =>
    obtain ⟨⟨hp, hd⟩, ho⟩ := wf_read_iff.1 h
    rw [maskFields_read, Nat.mod_eq_of_lt hp, Nat.mod_eq_of_lt hd, Nat.mod_eq_of_lt ho]
  | write srcAddr dstAddr =>
    obtain ⟨hs, hd⟩ := wf_write_iff.1 h
    rw [maskFields_write, Nat.mod_eq_of_lt hs, Nat.mod_eq_of_lt hd]
  | sqrt dstAddr ptrAddr =>
    obtain ⟨hd, hp⟩ := wf_sqrt_iff.1 h
    rw [maskFields_sqrt, Nat.mod_eq_of_lt hd, Nat.mod_eq_of_lt hp]

/-! ### Instruction words -/

/-- Every instruction's group has the shape that `EncodeShape` proves constructor by constructor. -/
theorem encodeShape (i : Instr) : Laws.EncodeShape.Statement i := by
  cases i with
  | load const addr => exact Laws.EncodeShape.load const addr
  | read ptrAddr dstAddr offset => exact Laws.EncodeShape.read ptrAddr dstAddr offset
  | write srcAddr dstAddr => exact Laws.EncodeShape.write srcAddr dstAddr
  | sqrt dstAddr ptrAddr => exact Laws.EncodeShape.sqrt dstAddr ptrAddr

/-- The fields and the padding end where the group ends. -/
theorem two_pow_paddingLo_le (op : Opcode) : 2 ^ op.paddingLo ≤ 256 ^ op.byteLength := by
  cases op <;> decide

/-- The opcode bits are none of the padding. -/
theorem opcodeSize_dvd_two_pow_paddingLo (op : Opcode) : 128 ∣ 2 ^ op.paddingLo := by
  cases op <;> decide

/-- The bytes of an instruction's group hold its whole word. -/
theorem wordOfBytes_encode (i : Instr) : wordOfBytes (encode i) = encodeWord i := by
  obtain ⟨-, -, hlt⟩ := encodeShape i
  rw [encode, wordOfBytes_bytesOfWord]
  exact Nat.mod_eq_of_lt (hlt.trans_le (two_pow_paddingLo_le i.opcode))

/-- A group is the encoding of an instruction exactly when it has its length and its word. -/
theorem encode_eq_iff {i : Instr} {g : List Byte} (hl : g.length = i.byteLength) :
    encode i = g ↔ encodeWord i = wordOfBytes g := by
  constructor
  · rintro rfl
    exact (wordOfBytes_encode i).symm
  · intro h
    rw [encode, h, ← hl, bytesOfWord_wordOfBytes]

/-- Cutting the operands out of a word does not look at its padding bits (30_encoding.md R64). -/
theorem unpack_mod_two_pow_paddingLo (op : Opcode) (w : Nat) : op.unpack (w % 2 ^ op.paddingLo) = op.unpack w := by
  cases op with
  | load => simp only [unpack_load, Opcode.paddingLo]; congr 1 <;> omega
  | read => simp only [unpack_read, Opcode.paddingLo]; congr 1 <;> omega
  | write => simp only [unpack_write, Opcode.paddingLo]; congr 1 <;> omega
  | sqrt => simp only [unpack_sqrt, Opcode.paddingLo]; congr 1 <;> omega

/-- Cutting the operands out of an instruction's word gives them back masked. -/
theorem unpack_encodeWord (i : Instr) : i.opcode.unpack (encodeWord i) = i.maskFields := by
  cases i with
  | load const addr =>
    rw [Instr.opcode, unpack_load, encodeWord_load, maskFields_load]
    congr 1 <;> omega
  | read ptrAddr dstAddr offset =>
    rw [Instr.opcode, unpack_read, encodeWord_read, maskFields_read]
    congr 1 <;> omega
  | write srcAddr dstAddr =>
    rw [Instr.opcode, unpack_write, encodeWord_write, maskFields_write]
    congr 1 <;> omega
  | sqrt dstAddr ptrAddr =>
    rw [Instr.opcode, unpack_sqrt, encodeWord_sqrt, maskFields_sqrt]
    congr 1 <;> omega

/-- Packing what was cut out of a word restores the word with its padding cleared. -/
theorem encodeWord_unpack {op : Opcode} {w : Nat} (hc : w % 128 = op.code) :
    encodeWord (op.unpack w) = w % 2 ^ op.paddingLo := by
  cases op with
  | load => rw [Opcode.code] at hc; rw [unpack_load, encodeWord_load, Opcode.paddingLo]; omega
  | read => rw [Opcode.code] at hc; rw [unpack_read, encodeWord_read, Opcode.paddingLo]; omega
  | write => rw [Opcode.code] at hc; rw [unpack_write, encodeWord_write, Opcode.paddingLo]; omega
  | sqrt => rw [Opcode.code] at hc; rw [unpack_sqrt, encodeWord_sqrt, Opcode.paddingLo]; omega

/-! ### Groups -/

/-- A group decodes to the masked instruction if its word is the instruction's below the padding. -/
theorem decode_group_of_word {i : Instr} {g : List Byte} (before after : List Byte) (hl : g.length = i.byteLength)
    (hw : wordOfBytes g % 2 ^ i.opcode.paddingLo = encodeWord i) :
    decode (before ++ g ++ after) before.length = .ok (i.maskFields, i.byteLength) := by
  obtain ⟨-, hc, -⟩ := encodeShape i
  rw [← hw, Nat.mod_mod_of_dvd _ (opcodeSize_dvd_two_pow_paddingLo _)] at hc
  rw [decode_group before g after hl hc, ← unpack_encodeWord, ← hw, unpack_mod_two_pow_paddingLo]
  rfl

/-- What a group that decodes whole is: the group of a legal opcode, unpacked. -/
theorem decode_whole_inv {g : List Byte} {i : Instr} (h : decode g 0 = .ok (i, g.length)) :
    g.length = i.byteLength ∧ wordOfBytes g % 128 = i.opcode.code ∧ i = i.opcode.unpack (wordOfBytes g) := by
  refine ⟨decode_ok_length h, ?_⟩
  obtain ⟨b, op, hb, hop, -, hi, hlen⟩ := decode_ok_iff.1 h
  rw [← hlen, groupBytes, List.drop_zero, List.take_length] at hi
  subst hi
  cases g with
  | nil => cases hb
  | cons c cs =>
    cases hb
    rw [opcode_unpack, wordOfBytes_cons_mod, ofCode_eq_some.1 hop]
    exact ⟨rfl, rfl⟩

/-- Settles O8: the group of an instruction carries exactly its word, and unpacking a word and packing an instruction
are inverse up to the masks and the padding. -/
theorem decodeOfEncodeMasksOperands : Obligations.DecodeOfEncodeMasksOperands := by
  refine ⟨fun i before after => ?_, fun i => ⟨opcode_maskFields i, operands_maskFields i⟩, fun g i h => ?_⟩
  · obtain ⟨hl, -, hlt⟩ := encodeShape i
    exact decode_group_of_word before after hl (by rw [wordOfBytes_encode, Nat.mod_eq_of_lt hlt])
  · obtain ⟨hl, hc, hi⟩ := decode_whole_inv h
    have hword : encodeWord i = wordOfBytes g % 2 ^ i.opcode.paddingLo := by
      rw [← encodeWord_unpack hc, ← hi]
    rw [encode_eq_iff hl, hword]
    exact Nat.mod_eq_iff_lt (by positivity)

/-- Settles O9: both groups keep the opcode bits, and unpacking sees only the bits below the padding. -/
theorem paddingBitsAreIgnored : Obligations.PaddingBitsAreIgnored := by
  intro op g g' hl hl' hc hpad
  have hc' : wordOfBytes g' % 128 = op.code := by
    rw [← hc, ← Nat.mod_mod_of_dvd (wordOfBytes g') (opcodeSize_dvd_two_pow_paddingLo op), hpad,
      Nat.mod_mod_of_dvd _ (opcodeSize_dvd_two_pow_paddingLo op)]
  have hsame : op.unpack (wordOfBytes g') = op.unpack (wordOfBytes g) := by
    rw [← unpack_mod_two_pow_paddingLo, hpad, unpack_mod_two_pow_paddingLo]
  refine ⟨op.unpack (wordOfBytes g), opcode_unpack op _, ?_, ?_⟩
  · simpa using decode_group [] g [] hl hc
  · simpa [hsame] using decode_group [] g' [] hl' hc'

/-- Settles O11: the decoder raises it exactly where the opcode map has no entry for the low 7 bits, and the map's
illegal tags are counted over all 128. -/
theorem unknownOpcodeExactlyOnIllegalBits : Obligations.UnknownOpcodeExactlyOnIllegalBits := by
  refine ⟨fun prog o k => ?_, by rfl⟩
  rw [decode_unknownOpcode_iff]
  refine exists_congr fun b => and_congr_right fun _ => ?_
  rw [ofCode_eq_none, opcodeBits_eq]
  constructor
  · rintro ⟨hk, rfl⟩
    exact ⟨rfl, hk⟩
  · rintro ⟨rfl, hk⟩
    exact ⟨hk, rfl⟩

end Sys2Proof.Proofs
end

section
/-! PROOFS. The byte formulas of the formats (30_encoding.md R53 to R56) spell out the instruction word. -/

namespace Sys2Proof.Proofs

open Sys2Proof.Machine

/-! ### A field, cut into slices by the byte borders it crosses -/

theorem const_at_bit7_eq_slices (v : Nat) :
    v % 2 ^ 23 = slice v 0 0 + 2 ^ 1 * slice v 8 1 + 2 ^ 9 * slice v 16 9 + 2 ^ 17 * slice v 22 17 := by
  simp only [slice_eq_div_mod]
  omega

theorem addr_at_bit30_eq_slices (v : Nat) :
    v % 2 ^ 14 = slice v 1 0 + 2 ^ 2 * slice v 9 2 + 2 ^ 10 * slice v 13 10 := by
  simp only [slice_eq_div_mod]
  omega

theorem addr_at_bit7_eq_slices (v : Nat) :
    v % 2 ^ 14 = slice v 0 0 + 2 ^ 1 * slice v 8 1 + 2 ^ 9 * slice v 13 9 := by
  simp only [slice_eq_div_mod]
  omega

theorem addr_at_bit21_eq_slices (v : Nat) :
    v % 2 ^ 14 = slice v 2 0 + 2 ^ 3 * slice v 10 3 + 2 ^ 11 * slice v 13 11 := by
  simp only [slice_eq_div_mod]
  omega

theorem offset_at_bit35_eq_slices (v : Nat) : v % 2 ^ 7 = slice v 4 0 + 2 ^ 5 * slice v 6 5 := by
  simp only [slice_eq_div_mod]
  omega

/-! ### The word of each format -/

/-- The bytes of R53 are the `LOAD` word with four padding bits above it. -/
theorem wordOfBytes_groupCA (const addr padding : Nat) :
    wordOfBytes (groupCA const addr padding) = encodeWord (.load const addr) + padding % 2 ^ 4 * 2 ^ 44 := by
  rw [encodeWord_load, const_at_bit7_eq_slices const, addr_at_bit30_eq_slices addr, ← slice_zero_eq_mod padding 3]
  have := slice_lt const 0 0
  have := slice_lt const 8 1
  have := slice_lt const 16 9
  have := slice_lt const 22 17
  have := slice_lt addr 1 0
  have := slice_lt addr 9 2
  have := slice_lt addr 13 10
  have := slice_lt padding 3 0
  simp only [groupCA, wordOfBytes, BitVec.toNat_ofNat]
  omega

/-- The bytes of R54 are the `READ` word with six padding bits above it. -/
theorem wordOfBytes_groupAAO (ptrAddr dstAddr offset padding : Nat) :
    wordOfBytes (groupAAO ptrAddr dstAddr offset padding) =
      encodeWord (.read ptrAddr dstAddr offset) + padding % 2 ^ 6 * 2 ^ 42 := by
  rw [encodeWord_read, addr_at_bit7_eq_slices ptrAddr, addr_at_bit21_eq_slices dstAddr,
    offset_at_bit35_eq_slices offset, ← slice_zero_eq_mod padding 5]
  have := slice_lt ptrAddr 0 0
  have := slice_lt ptrAddr 8 1
  have := slice_lt ptrAddr 13 9
  have := slice_lt dstAddr 2 0
  have := slice_lt dstAddr 10 3
  have := slice_lt dstAddr 13 11
  have := slice_lt offset 4 0
  have := slice_lt offset 6 5
  have := slice_lt padding 5 0
  simp only [groupAAO, wordOfBytes, BitVec.toNat_ofNat]
  omega

/-- The bytes of R55 and R56 are the sum of the opcode, the two address fields and five padding bits. -/
theorem wordOfBytes_groupAA {code : Nat} (low high padding : Nat) (hcode : code < 128) :
    wordOfBytes (groupAA code low high padding) =
      code + low % 2 ^ 14 * 2 ^ 7 + high % 2 ^ 14 * 2 ^ 21 + padding % 2 ^ 5 * 2 ^ 35 := by
  rw [addr_at_bit7_eq_slices low, addr_at_bit21_eq_slices high, ← slice_zero_eq_mod padding 4]
  have := slice_lt low 0 0
  have := slice_lt low 8 1
  have := slice_lt low 13 9
  have := slice_lt high 2 0
  have := slice_lt high 10 3
  have := slice_lt high 13 11
  have := slice_lt padding 4 0
  simp only [groupAA, wordOfBytes, BitVec.toNat_ofNat]
  omega

theorem wordOfBytes_groupAA_write (srcAddr dstAddr padding : Nat) :
    wordOfBytes (groupAA 0b0101100 srcAddr dstAddr padding) =
      encodeWord (.write srcAddr dstAddr) + padding % 2 ^ 5 * 2 ^ 35 := by
  rw [wordOfBytes_groupAA srcAddr dstAddr padding (by decide), encodeWord_write]

theorem wordOfBytes_groupAA_sqrt (dstAddr ptrAddr padding : Nat) :
    wordOfBytes (groupAA 0b0111001 dstAddr ptrAddr padding) =
      encodeWord (.sqrt dstAddr ptrAddr) + padding % 2 ^ 5 * 2 ^ 35 := by
  rw [wordOfBytes_groupAA dstAddr ptrAddr padding (by decide), encodeWord_sqrt]

/-- A group whose word is a well-formed instruction's with any padding above it decodes to that instruction. -/
theorem decode_of_word_add_padding {i : Instr} {g : List Byte} {p : Nat} (hwf : i.wf = true)
    (hl : g.length = i.byteLength) (hw : wordOfBytes g = encodeWord i + p * 2 ^ i.opcode.paddingLo) :
    decode g 0 = .ok (i, i.byteLength) := by
  obtain ⟨-, -, hlt⟩ := encodeShape i
  have hmod : wordOfBytes g % 2 ^ i.opcode.paddingLo = encodeWord i := by
    rw [hw, Nat.add_mul_mod_self_right, Nat.mod_eq_of_lt hlt]
  simpa [maskFields_of_wf hwf] using decode_group_of_word [] [] hl hmod

/-- Settles O7: each format's bytes hold the instruction's word below the padding, so with padding 0 they are its
encoding, and with any padding they decode to it. -/
theorem groupsFollowTheFormatsByteByByte : Obligations.GroupsFollowTheFormatsByteByByte := by
  refine ⟨fun a b c => ⟨?_, ?_, ?_, ?_⟩, fun const addr p hconst haddr => ?_,
    fun a b offset p ha hb hoffset => ⟨?_, ?_, ?_⟩⟩
  · exact (encode_eq_iff rfl).2 (wordOfBytes_groupCA a b 0).symm
  · exact (encode_eq_iff rfl).2 (wordOfBytes_groupAAO a b c 0).symm
  · exact (encode_eq_iff rfl).2 (wordOfBytes_groupAA_write a b 0).symm
  · exact (encode_eq_iff rfl).2 (wordOfBytes_groupAA_sqrt a b 0).symm
  · exact decode_of_word_add_padding (wf_load_iff.2 ⟨hconst, haddr⟩) rfl (wordOfBytes_groupCA const addr p)
  · exact decode_of_word_add_padding (wf_read_iff.2 ⟨⟨ha, hb⟩, hoffset⟩) rfl (wordOfBytes_groupAAO a b offset p)
  · exact decode_of_word_add_padding (wf_write_iff.2 ⟨ha, hb⟩) rfl (wordOfBytes_groupAA_write a b p)
  · exact decode_of_word_add_padding (wf_sqrt_iff.2 ⟨ha, hb⟩) rfl (wordOfBytes_groupAA_sqrt a b p)

end Sys2Proof.Proofs
end

section
/-! PROOFS. What a step from `RUN` leads to: a machine still running has moved over one group, one that halted stood at
the end, one that faulted kept everything but the fault record (40_sequencer_decoder.md R80, R81, R90, R91). -/

namespace Sys2Proof.Proofs

open Sys2Proof.Machine

/-- A machine that runs after a step has executed the instruction at `pc` and stands after its group. -/
theorem step_running {s t : State} (hstep : step s = .next t) (ht : t.status = .run) :
    ∃ i len, decode s.prog s.pc = .ok (i, len) ∧ t.pc = s.pc + len := by
  rcases step_cases s with ⟨hs, h⟩ | ⟨-, -, h⟩ | ⟨f, -, -, -, h⟩ | ⟨i, len, e, -, -, -, h⟩ |
    ⟨i, len, v, -, hd, -, -, -, h⟩ <;> cases h.symm.trans hstep
  case inl => exact absurd ht hs
  case inr.inl => cases ht
  case inr.inr.inl => cases ht
  case inr.inr.inr.inl => cases ht
  case inr.inr.inr.inr => exact ⟨i, len, hd, rfl⟩

/-- A step after which the machine does not run leaves `pc` where it was. -/
theorem step_stopping_keeps_pc {s t : State} (hstep : step s = .next t) (ht : t.status ≠ .run) : t.pc = s.pc := by
  rcases step_cases s with ⟨-, h⟩ | ⟨-, -, h⟩ | ⟨f, -, -, -, h⟩ | ⟨i, len, e, -, -, -, h⟩ |
    ⟨i, len, v, hrun, -, -, -, -, h⟩ <;> cases h.symm.trans hstep
  case inl => rfl
  case inr.inl => exact enterHalt_pc s
  case inr.inr.inl => exact takeFault_pc s _
  case inr.inr.inr.inl => exact takeFault_pc s e
  case inr.inr.inr.inr => exact absurd hrun ht

/-- A running machine halts in a step only at the end of the Program. -/
theorem atEnd_of_step_halted {s t : State} (hrun : s.status = .run) (hstep : step s = .next t)
    (ht : t.status = .halt) : s.prog.length ≤ s.pc := by
  rcases step_cases s with ⟨hs, -⟩ | ⟨-, hend, -⟩ | ⟨f, -, -, -, h⟩ | ⟨i, len, e, -, -, -, h⟩ |
    ⟨i, len, v, -, -, -, -, -, h⟩
  · exact absurd hrun hs
  · exact hend
  all_goals cases h.symm.trans hstep
  · cases ht
  · cases ht
  · cases hrun.symm.trans ht

/-- A running machine faults in a step only by fault entry in the very state the step began in. -/
theorem step_faulted {s t : State} (hrun : s.status = .run) (hstep : step s = .next t) (ht : t.status = .fault) :
    ∃ e, t = s.takeFault e := by
  rcases step_cases s with ⟨hs, -⟩ | ⟨-, -, h⟩ | ⟨f, -, -, -, h⟩ | ⟨i, len, e, -, -, -, h⟩ |
    ⟨i, len, v, -, -, -, -, -, h⟩
  · exact absurd hrun hs
  all_goals cases h.symm.trans hstep
  · cases ht
  · exact ⟨_, rfl⟩
  · exact ⟨e, rfl⟩
  · cases hrun.symm.trans ht

/-- Every fault records a cause (60_exceptions.md R120). -/
theorem trap_cause_ne_none (e : Trap) : e.cause ≠ .none := by
  cases e <;> simp [Trap.cause]

/-- Settles O17: each clause is the step's own case; execution answers either a written cell, with `status` still `RUN`,
or fault entry, and the sequencer advances `pc` after the first only. -/
theorem stepFollowsTheSequencer : Obligations.StepFollowsTheSequencer := by
  refine fun s => ⟨step_stopped, step_atEnd, fun hrun hpc => ⟨fun k hd => step_decodeFault hrun hpc hd,
    fun k hd => step_decodeFault hrun hpc hd, fun i len hd => ?_⟩⟩
  have hstep := step_decoded hrun hd
  rcases exec_cases i s with ⟨v, -, -, hx⟩ | ⟨e, hx⟩
  · refine ⟨_, hx, fun ht => ?_, fun ht => absurd hrun ht⟩
    rw [hstep, hx, retire_next, (not_stopped_iff _).2 ht]
    rfl
  · refine ⟨_, hx, fun ht => ?_, fun ht => ⟨takeFault_status s e, ?_⟩⟩
    · cases ht
    · rw [hstep, hx, retire_next, if_pos ((stopped_iff _).2 ht)]

/-- Settles O19: at the end the step is the halt transition, and a step to `HALT` was taken at the end; the invariant
puts `pc` at most there. -/
theorem haltTransitionExactlyAtTheEnd : Obligations.HaltTransitionExactlyAtTheEnd := by
  intro s hrun
  have hiff : step s = .next { s with status := .halt } ↔ s.prog.length ≤ s.pc :=
    ⟨fun h => atEnd_of_step_halted hrun h rfl, step_atEnd hrun⟩
  exact ⟨hiff, fun hinv => hiff.trans ⟨hinv.pc_le.antisymm, fun h => h.ge⟩⟩

/-- Settles O21: a step that leaves the machine running moved it by the decoded length, any other kept `pc`. -/
theorem pcGrowsOnlyByTheGroupLength : Obligations.PcGrowsOnlyByTheGroupLength := by
  refine fun s t _ hstep => ⟨fun ht => ?_, step_stopping_keeps_pc hstep⟩
  obtain ⟨i, len, hd, hpc⟩ := step_running hstep ht
  refine ⟨i, len, hd, hpc, ?_⟩
  rw [decode_ok_length hd]
  cases i <;> rfl

/-- Settles O22: a faulting step is fault entry in the old state, which writes the fault record and `status` alone. -/
theorem faultKeepsNothingOfTheInstruction : Obligations.FaultKeepsNothingOfTheInstruction := by
  intro s t hrun hstep ht
  obtain ⟨e, rfl⟩ := step_faulted hrun hstep ht
  exact ⟨rfl, trap_cause_ne_none e⟩

end Sys2Proof.Proofs
end

section
/-! PROOFS. Every run ends: a step that does not end it takes at least 5 bytes of the Program
(40_sequencer_decoder.md R95). -/

namespace Sys2Proof.Proofs

open Sys2Proof.Machine

/-- A run ends within `n + 1` steps where fewer than `5 * (n + 1)` Program bytes are left at `pc`. The last step has less
than a group left and cannot go on. -/
theorem runSteps_ends {n : Nat} {s : State} (hleft : s.prog.length < s.pc + 5 * (n + 1)) :
    ∃ t, runSteps (n + 1) s = .next t ∧ t.status ≠ .run := by
  induction n generalizing s with
  | zero =>
    obtain ⟨t, ht⟩ := step_next s
    refine ⟨t, runSteps_succ ht, fun hrun => ?_⟩
    obtain ⟨i, len, hd, -⟩ := step_running ht hrun
    have hb := decode_ok_bounds hd
    omega
  | succ n ih =>
    obtain ⟨t, ht⟩ := step_next s
    rw [runSteps_succ ht]
    by_cases hrun : t.status = .run
    · obtain ⟨i, len, hd, hpc⟩ := step_running ht hrun
      obtain ⟨hprog, -⟩ := step_keeps_prog_params ht
      have hb := decode_ok_bounds hd
      exact ih (by rw [hprog]; omega)
    · exact ⟨t, runSteps_stopped hrun _, hrun⟩

/-- Settles O38: the decoder's least length is the progress of each step, and `floor(PROG_LEN / 5) + 1` groups of that
length are longer than the Program. -/
theorem runEndsWithinTheBound : Obligations.RunEndsWithinTheBound := by
  refine ⟨fun s t _ hstep => or_iff_not_imp_left.2 fun hnot => ?_, fun s => runSteps_ends (by omega)⟩
  obtain ⟨i, len, hd, hpc⟩ := step_running hstep (not_not.1 hnot)
  have hb := decode_ok_bounds hd
  omega

end Sys2Proof.Proofs
end

section
/-! PROOFS. A run of a Program that decodes whole is the straight-line execution of its listing
(40_sequencer_decoder.md R82). -/

namespace Sys2Proof.Proofs

open Sys2Proof.Machine

/-- Sequential decoding that succeeds either is at the end of the Program or decodes one group and goes on after it
(30_encoding.md R66). -/
theorem decodeFrom_succ_ok {prog : List Byte} {fuel o : Nat} {is : List Instr}
    (h : decodeFrom prog (fuel + 1) o = .ok is) :
    (prog.length ≤ o ∧ is = []) ∨
    ∃ i len rest, decode prog o = .ok (i, len) ∧ decodeFrom prog fuel (o + len) = .ok rest ∧ is = i :: rest := by
  unfold decodeFrom at h
  split at h
  · next hend => cases h; exact .inl ⟨hend, rfl⟩
  · split at h
    · cases h
    · next i len hd =>
      split at h
      · cases h
      · next rest hrest => cases h; exact .inr ⟨i, len, rest, hd, hrest, rfl⟩

/-- The straight-line execution of a listing begins with the machine's step on its first instruction, and goes on with
the rest where that leaves the machine running. -/
theorem straightLine_cons {s t : State} {i : Instr} {len : Nat} (is : List Instr) (hrun : s.status = .run)
    (hd : decode s.prog s.pc = .ok (i, len)) (hstep : step s = .next t) :
    straightLine (i :: is) s = if t.status = .run then straightLine is t else t := by
  rw [step_decoded hrun hd] at hstep
  rcases exec_cases i s with ⟨v, -, -, hx⟩ | ⟨e, hx⟩
  · have hst : State.stopped { s with mem := s.mem.write (storeField i) v } = false := (not_stopped_iff _).2 hrun
    rw [hx, retire_next, hst] at hstep
    cases hstep
    simp only [straightLine, hx, hst, decode_ok_length hd]
    exact (if_pos hrun).symm
  · have hst : (s.takeFault e).stopped = true := (stopped_iff _).2 (by simp)
    rw [hx, retire_next, if_pos hst] at hstep
    cases hstep
    simp only [straightLine, hx, hst]
    rfl

/-- A machine at the end of its Program runs the empty listing: one step, to `HALT`. -/
theorem run_empty_listing {s : State} (hrun : s.status = .run) (hend : s.prog.length ≤ s.pc) :
    runSteps 1 s = .next (straightLine [] s) ∧ (straightLine [] s).status ≠ .run :=
  ⟨runSteps_succ (step_atEnd hrun hend), by simp [straightLine]⟩

/-- From any offset, the machine runs the listing that sequential decoding finds there: one step for each instruction and
one to halt. The fuel covers the Program's remaining bytes. -/
theorem run_listing {fuel : Nat} {s : State} {is : List Instr} (hrun : s.status = .run)
    (hfuel : s.prog.length ≤ s.pc + fuel) (his : decodeFrom s.prog fuel s.pc = .ok is) :
    runSteps (is.length + 1) s = .next (straightLine is s) ∧ (straightLine is s).status ≠ .run := by
  induction fuel generalizing s is with
  | zero =>
    cases his
    exact run_empty_listing hrun hfuel
  | succ fuel ih =>
    rcases decodeFrom_succ_ok his with ⟨hend, rfl⟩ | ⟨i, len, rest, hd, hrest, rfl⟩
    · exact run_empty_listing hrun hend
    · obtain ⟨t, ht⟩ := step_next s
      rw [List.length_cons, runSteps_succ ht, straightLine_cons rest hrun hd ht]
      by_cases hrun' : t.status = .run
      · obtain ⟨i', len', hd', hpc⟩ := step_running ht hrun'
        cases hd.symm.trans hd'
        obtain ⟨hprog, -⟩ := step_keeps_prog_params ht
        have hb := decode_ok_bounds hd
        rw [if_pos hrun']
        exact ih hrun' (by rw [hprog]; omega) (by rw [hprog, hpc]; exact hrest)
      · rw [if_neg hrun']
        exact ⟨runSteps_stopped hrun' _, hrun'⟩

/-- Settles O39: the run of the listing from offset 0; an empty listing leaves only the step that halts. -/
theorem runExecutesTheListingInOrder : Obligations.RunExecutesTheListingInOrder := by
  intro s is hrun hpc his
  obtain ⟨hsteps, hstopped⟩ :=
    run_listing (fuel := s.prog.length) hrun (Nat.le_add_left _ _) (by rw [hpc]; exact his)
  refine ⟨hsteps, hstopped, ?_⟩
  rintro rfl
  obtain ⟨t, ht⟩ := step_next s
  rw [List.length_nil, runSteps_succ ht, runSteps_zero] at hsteps
  exact ht.trans hsteps

end Sys2Proof.Proofs
end

section
/-! PROOFS. The bits of a decoded operand are bits of the Program (40_sequencer_decoder.md R87). -/

namespace Sys2Proof.Proofs

open Sys2Proof.Machine

/-- Bit `n` of a group's word is bit `n mod 8` of its byte `n / 8` (20_memory.md R36). -/
theorem testBit_wordOfBytes {bs : List Byte} {b : Byte} {n : Nat} (hb : bs[n / 8]? = some b) :
    (wordOfBytes bs).testBit n = b.getLsbD (n % 8) := by
  induction bs generalizing n with
  | nil => cases hb
  | cons c cs ih =>
    have hword : wordOfBytes (c :: cs) = 2 ^ 8 * wordOfBytes cs + c.toNat := Nat.add_comm _ _
    rw [hword, Nat.testBit_two_pow_mul_add _ c.isLt]
    split
    · next hn =>
      rw [Nat.div_eq_of_lt hn] at hb
      cases hb
      rw [Nat.mod_eq_of_lt hn]
      rfl
    · next hn =>
      have hdiv : n / 8 = (n - 8) / 8 + 1 := by omega
      have hmod : n % 8 = (n - 8) % 8 := by omega
      rw [hdiv, List.getElem?_cons_succ] at hb
      rw [hmod, ih hb]

/-- The bytes of a group are the Program's from its offset on (20_memory.md R33). -/
theorem getElem?_groupBytes (prog : List Byte) (o : Nat) {len k : Nat} (hk : k < len) :
    (groupBytes prog o len)[k]? = prog[o + k]? := by
  rw [groupBytes, List.getElem?_take_of_lt hk, List.getElem?_drop]

/-- The operands cut out of a word are its fields by R51's (width, offset) pairs. -/
theorem operands_unpack (op : Opcode) (w : Nat) :
    (op.unpack w).operands = (fieldTable op).map fun field => w >>> field.2 % 2 ^ field.1 := by
  cases op <;> rfl

/-- Every field lies inside its opcode's group (30_encoding.md R51, R52). -/
theorem fieldTable_inside_group {op : Opcode} {width off : Nat} (h : (width, off) ∈ fieldTable op) :
    off + width ≤ 8 * op.byteLength := by
  have hall : ∀ field ∈ fieldTable op, field.2 + field.1 ≤ 8 * op.byteLength := by cases op <;> decide
  exact hall _ h

/-- Settles O10: an operand is its field of the group's word, and the word's bits are the Program's. -/
theorem operandsAreTheFieldBits : Obligations.OperandsAreTheFieldBits := by
  intro prog o i len h
  obtain ⟨b, op, hb, hop, hlen, rfl, -⟩ := decode_ok_iff.1 h
  rw [opcode_unpack, operands_unpack]
  refine ⟨⟨b, hb, by rw [← opcodeBits_eq, ofCode_eq_some.1 hop]⟩, List.length_map _, ?_⟩
  intro k x width off hx hfield
  rw [List.getElem?_map, hfield] at hx
  cases hx
  refine ⟨Nat.mod_lt _ (by positivity), fun j hj => ?_⟩
  have hinside := fieldTable_inside_group (List.mem_of_getElem? hfield)
  have hbyte : (off + j) / 8 < op.byteLength := by omega
  obtain ⟨c, hc⟩ : ∃ c, prog[o + (off + j) / 8]? = some c := ⟨_, List.getElem?_eq_getElem (by omega)⟩
  refine ⟨c, hc, ?_⟩
  rw [Nat.testBit_mod_two_pow, Nat.testBit_shiftRight, decide_eq_true hj, Bool.true_and]
  exact testBit_wordOfBytes ((getElem?_groupBytes prog o hbyte).trans hc)

end Sys2Proof.Proofs
end

section
/-! PROOFS. What a store does: the cell it names holds the value, every other cell and everything else is as it was
(20_memory.md R43), and which cells a run can store to (41_data_movement.md R106). -/

namespace Sys2Proof.Proofs

open Sys2Proof.Machine

/-! ### One store to a canonical Memory (20_memory.md R43) -/

section
variable {s : State} (hwf : s.mem.wf = true)
include hwf

theorem cell_store_same (a : Nat) (v : Int) : { s with mem := s.mem.write a v }.cell a = v := by
  rw [withMem_cell, Memory.read_write hwf, if_pos rfl]

theorem cell_store_other {a b : Nat} (v : Int) (h : b ≠ a) :
    { s with mem := s.mem.write a v }.cell b = s.cell b := by
  rw [withMem_cell, Memory.read_write hwf, if_neg h]
  rfl

/-- Storing what the cell already holds leaves the whole state as it was. -/
theorem store_cell_self (a : Nat) : { s with mem := s.mem.write a (s.cell a) } = s := by
  rw [State.cell, Memory.write_same hwf]

end

/-! ### The cells a run can change -/

/-- Every destination field is 14 bits wide (30_encoding.md R51). -/
theorem storeField_unpack_lt (op : Opcode) (w : Nat) : storeField (op.unpack w) < 2 ^ 14 := by
  cases op with
  | load => exact slice_lt w 43 30
  | read => exact slice_lt w 34 21
  | write => exact slice_lt w 34 21
  | sqrt => exact slice_lt w 20 7

theorem storeField_decoded_lt {prog : List Byte} {o len : Nat} {i : Instr} (h : decode prog o = .ok (i, len)) :
    storeField i < 2 ^ 14 := by
  obtain ⟨b, op, -, -, -, rfl, -⟩ := decode_ok_iff.1 h
  exact storeField_unpack_lt op _

/-- The Program names cell `a` as a direct destination, and the cell exists (41_data_movement.md R106). -/
def NamedForStore (s : State) (a : Nat) : Prop :=
  (∃ o i len, decode s.prog o = .ok (i, len) ∧ storeField i = a) ∧ a < s.params.memCells ∧ a < 16384

/-- Which cells are named depends on the Program and the parameters alone. -/
theorem namedForStore_congr {s t : State} (hprog : t.prog = s.prog) (hparams : t.params = s.params) (a : Nat) :
    NamedForStore t a ↔ NamedForStore s a := by
  rw [NamedForStore, NamedForStore, hprog, hparams]

/-- A step keeps Memory canonical and changes at most a cell that the Program names. -/
theorem step_changes_only_named {s t : State} (hwf : s.mem.wf = true) (hstep : step s = .next t) :
    t.mem.wf = true ∧ ∀ a, t.cell a ≠ s.cell a → NamedForStore s a := by
  rcases step_cases s with ⟨-, h⟩ | ⟨-, -, h⟩ | ⟨f, -, -, -, h⟩ | ⟨i, len, e, -, -, -, h⟩ |
    ⟨i, len, v, -, hd, -, hcell, -, h⟩ <;> cases h.symm.trans hstep
  case inl => exact ⟨hwf, fun a hne => absurd rfl hne⟩
  case inr.inl => exact ⟨hwf, fun a hne => absurd (enterHalt_cell s a) hne⟩
  case inr.inr.inl => exact ⟨hwf, fun a hne => absurd (takeFault_cell s _ a) hne⟩
  case inr.inr.inr.inl => exact ⟨hwf, fun a hne => absurd (takeFault_cell s e a) hne⟩
  case inr.inr.inr.inr =>
    refine ⟨Memory.wf_write hwf _ _, fun a hne => ?_⟩
    have ha : storeField i = a := by
      by_contra hother
      exact hne (cell_store_other hwf v (Ne.symm hother))
    subst ha
    exact ⟨⟨s.pc, i, len, hd, rfl⟩, hcell, storeField_decoded_lt hd⟩

/-- A run of any length changes at most cells that the Program names: a cell that reads differently at the end was
changed by the first step or by the rest of the run, and both see the same Program. -/
theorem runSteps_changes_only_named {n a : Nat} {s t : State} (hwf : s.mem.wf = true) (hrun : runSteps n s = .next t)
    (hne : t.cell a ≠ s.cell a) : NamedForStore s a := by
  induction n generalizing s with
  | zero =>
    cases hrun
    exact absurd rfl hne
  | succ n ih =>
    obtain ⟨u, hstep⟩ := step_next s
    rw [runSteps_succ hstep] at hrun
    obtain ⟨huwf, hnamed⟩ := step_changes_only_named hwf hstep
    by_cases hsame : t.cell a = u.cell a
    · exact hnamed a (hsame ▸ hne)
    · obtain ⟨hprog, hparams⟩ := step_keeps_prog_params hstep
      exact (namedForStore_congr hprog hparams a).1 (ih huwf hrun hsame)

/-- Settles O41: a step stores only to a cell that the instruction it decoded names, and no step changes which cells the
Program names. -/
theorem runWritesOnlyNamedCells : Obligations.RunWritesOnlyNamedCells := by
  intro s t n a hwf hrun hne
  exact runSteps_changes_only_named hwf hrun hne

end Sys2Proof.Proofs
end

section
/-! PROOFS. `LOAD`, `WRITE` and `READ`: what they store, which fault they enter, and where their fields stand
(41_data_movement.md R100 to R102). -/

namespace Sys2Proof.Proofs

open Sys2Proof.Machine

/-- The bytes of a word with a legal opcode decode to its fields, whatever the padding bits hold. -/
theorem decode_bytesOfWord {op : Opcode} {w : Nat} (hlt : w < 256 ^ op.byteLength) (hc : w % 128 = op.code) :
    decode (bytesOfWord op.byteLength w) 0 = .ok (op.unpack w, op.byteLength) := by
  have hw : wordOfBytes (bytesOfWord op.byteLength w) = w := by
    rw [wordOfBytes_bytesOfWord, Nat.mod_eq_of_lt hlt]
  simpa [hw] using decode_group [] (bytesOfWord op.byteLength w) [] (length_bytesOfWord _ _) (by rw [hw, hc])

/-- A running machine whose instruction completes moves `pc` over the group (40_sequencer_decoder.md R90). -/
theorem step_completed {s t : State} {i : Instr} {len : Nat} (hx : exec i s = .next t) (ht : t.status = .run)
    (hrun : s.status = .run) (hd : decode s.prog s.pc = .ok (i, len)) : step s = .next (t.advance len) := by
  rw [step_decoded hrun hd, hx, retire_next, (not_stopped_iff t).2 ht]
  rfl

/-- What completion means for an instruction that stores `v` to cell `d`: the result, the frame, and the step. -/
theorem store_completes {s : State} {i : Instr} {d : Nat} {v : Int} (len : Nat) (hwf : s.mem.wf = true)
    (hx : exec i s = .next { s with mem := s.mem.write d v }) :
    ∃ t, exec i s = .next t ∧ t = { s with mem := t.mem } ∧ t.cell d = v ∧ (∀ b, b ≠ d → t.cell b = s.cell b) ∧
      (s.status = .run → decode s.prog s.pc = .ok (i, len) → step s = .next { t with pc := s.pc + len }) :=
  ⟨_, hx, rfl, cell_store_same hwf d v, fun _ => cell_store_other hwf v,
    fun hrun hd => step_completed hx hrun hrun hd⟩

/-- `READ` where the exact sum is the address of an existing cell `ea`. -/
theorem exec_read_at {p d o ea : Nat} {s : State} (hp : p < s.params.memCells) (hea : (ea : Int) = s.cell p + o)
    (hlt : ea < s.params.memCells) (hd : d < s.params.memCells) :
    exec (.read p d o) s = .next { s with mem := s.mem.write d (s.cell ea) } := by
  have hto : (s.cell p + o).toNat = ea := by omega
  have hx := execRead_ok (d := d) (o := o) hp (by omega) (by omega) hd
  rwa [hto] at hx

/-- Settles O23: the port's check splits completion from the fault, and the fields are the decoder's slices. -/
theorem loadStoresItsConstant : Obligations.LoadStoresItsConstant := by
  intro const addr s hwf
  refine ⟨fun haddr => ?_, fun haddr => ?_, fun w hlt hc => ?_⟩
  · exact store_completes 6 hwf (execLoad_ok haddr)
  · exact execLoad_badAddr haddr
  · exact decode_bytesOfWord (op := .load) hlt hc

/-- Settles O24: the source's check, then the destination's, splits completion from the two faults. -/
theorem writeCopiesOneCell : Obligations.WriteCopiesOneCell := by
  intro srcAddr dstAddr s hwf
  refine ⟨fun hsrc hdst => ?_, fun hsrc => ?_, fun hsrc hdst => ?_, fun w hlt hc => ?_⟩
  · exact store_completes 5 hwf (execWrite_ok hsrc hdst)
  · exact execWrite_badSrc hsrc
  · exact execWrite_badDst hsrc hdst
  · exact decode_bytesOfWord (op := .write) hlt hc

/-- Settles O25: the checks of pointer cell, sum and destination in this order; a natural number equal to the exact sum
is the effective address. -/
theorem readLoadsThroughPointerAndOffset : Obligations.ReadLoadsThroughPointerAndOffset := by
  intro ptrAddr dstAddr offset s hwf
  refine ⟨fun hptr hnonneg hlt hdst => ?_, fun hptr => ?_, fun hptr hsum => ?_, fun hptr hnonneg hlt hdst => ?_,
    fun w hlt hc => ?_⟩
  · obtain ⟨ea, hea⟩ := Int.eq_ofNat_of_zero_le hnonneg
    have hx := exec_read_at hptr hea.symm (by omega) hdst
    obtain ⟨t, hx, hframe, hval, hcells, hstep⟩ := store_completes 6 hwf hx
    refine ⟨t, hx, hframe, fun ea' hea' => ?_, hcells, hstep⟩
    rwa [show ea' = ea by omega]
  · exact execRead_badPtr hptr
  · exact execRead_badEa hptr hsum
  · exact execRead_badDst hptr hnonneg hlt hdst
  · exact decode_bytesOfWord (op := .read) hlt hc

end Sys2Proof.Proofs
end

section
/-! PROOFS. Overlapping operands: the value stored is the one read from the state before the instruction
(41_data_movement.md R105). -/

namespace Sys2Proof.Proofs

open Sys2Proof.Machine

/-- `SQRT` where the pointer holds the address of an existing cell `va` with a value that has a root. -/
theorem exec_sqrt_at {d p va : Nat} {s : State} (hp : p < s.params.memCells) (hva : (va : Int) = s.cell p)
    (hlt : va < s.params.memCells) (hnonneg : 0 ≤ s.cell va) (hd : d < s.params.memCells) :
    exec (.sqrt d p) s = .next { s with mem := s.mem.write d (isqrtValue (s.cell va)) } := by
  have hto : (s.cell p).toNat = va := by omega
  have hx := execSqrt_ok (d := d) hp (by omega) (by omega) (by rwa [hto]) hd
  rwa [hto] at hx

/-- Settles O28: each instruction stores a value of the old state, whichever cell it stores to; a cell stored onto
itself leaves the state as it was. -/
theorem overlappingOperandsReadBeforeWrite : Obligations.OverlappingOperandsReadBeforeWrite := by
  intro s hwf
  refine ⟨fun a ha => ?_, fun p o ea hp hea hlt => ⟨?_, ?_⟩, fun p d o hp hd hself => ?_,
    fun p va hp hva hlt hnonneg => ⟨?_, ?_⟩⟩
  · have hx : exec (.write a a) s = .next { s with mem := s.mem.write a (s.cell a) } := execWrite_ok ha ha
    rwa [store_cell_self hwf] at hx
  · exact ⟨_, exec_read_at hp hea hlt hp, cell_store_same hwf p _⟩
  · have hx := exec_read_at hp hea hlt hlt
    rwa [store_cell_self hwf] at hx
  · exact ⟨_, exec_read_at hp hself.symm hp hd, cell_store_same hwf d _⟩
  · exact ⟨_, exec_sqrt_at hp hva hlt hnonneg hp, cell_store_same hwf p _⟩
  · exact ⟨_, exec_sqrt_at hp hva hlt hnonneg hlt, cell_store_same hwf va _⟩

end Sys2Proof.Proofs
end

section
/-! PROOFS. The integer square root is the floor root of every natural number (42_sqrt_alu.md R113, R114). -/

namespace Sys2Proof.Proofs

open Sys2Proof.Machine

/-- Digit by digit the root of `v < 4^k` is exact: the root of `v / 4` doubled is at most one short of the root of
`v`. -/
theorem isqrtDigits_floor {k v : Nat} (hv : v < 4 ^ k) :
    isqrtDigits k v * isqrtDigits k v ≤ v ∧ v < (isqrtDigits k v + 1) * (isqrtDigits k v + 1) := by
  induction k generalizing v with
  | zero =>
    obtain rfl : v = 0 := by simpa using hv
    decide
  | succ k ih =>
    obtain ⟨hle, hlt⟩ := ih (Nat.div_lt_of_lt_mul (by rwa [← Nat.pow_succ'] : v < 4 * 4 ^ k))
    rw [isqrtDigits]
    generalize isqrtDigits k (v / 4) = r at hle hlt ⊢
    have hlow : 2 * r * (2 * r) ≤ v := by
      calc 2 * r * (2 * r) = 4 * (r * r) := by ring
        _ ≤ 4 * (v / 4) := Nat.mul_le_mul_left 4 hle
        _ ≤ v := Nat.mul_div_le v 4
    have hhigh : v < (2 * r + 1 + 1) * (2 * r + 1 + 1) := by
      calc v < 4 * (v / 4 + 1) := by omega
        _ ≤ 4 * ((r + 1) * (r + 1)) := Nat.mul_le_mul_left 4 hlt
        _ = (2 * r + 1 + 1) * (2 * r + 1 + 1) := by ring
    split
    · next hbit => exact ⟨hbit, hhigh⟩
    · next hbit => exact ⟨hlow, Nat.lt_of_not_le hbit⟩

/-- `v` has at most `log2 v / 2 + 1` base-4 digits, the number that `isqrt` works through. -/
theorem lt_four_pow_digits (v : Nat) : v < 4 ^ (Nat.log2 v / 2 + 1) := by
  calc v < 2 ^ (Nat.log2 v + 1) := Nat.lt_log2_self
    _ ≤ 2 ^ (2 * (Nat.log2 v / 2 + 1)) := Nat.pow_le_pow_right (by decide) (by omega)
    _ = 4 ^ (Nat.log2 v / 2 + 1) := Nat.pow_mul 2 2 _

/-- The machine's root is the library's, whose lemmas give R113 and R114. -/
theorem isqrt_eq_sqrt (v : Nat) : isqrt v = Nat.sqrt v :=
  Nat.eq_sqrt.2 (isqrtDigits_floor (lt_four_pow_digits v))

/-- Settles O31: the digit recurrence gives the floor root, and the floor root is unique. -/
theorem isqrtIsTheFloorRoot : Obligations.IsqrtIsTheFloorRoot := by
  intro v r
  rw [isqrt_eq_sqrt, eq_comm]
  exact Nat.eq_sqrt

theorem isqrt_le_self (v : Nat) : isqrt v ≤ v := by
  rw [isqrt_eq_sqrt]
  exact Nat.sqrt_le_self v

/-- Only 0 and 1 are their own roots. -/
theorem isqrt_eq_self_iff (v : Nat) : isqrt v = v ↔ v = 0 ∨ v = 1 := by
  rw [isqrt_eq_sqrt]
  constructor
  · intro heq
    by_contra hne
    exact absurd heq (Nat.sqrt_lt_self (by omega)).ne
  · rintro (rfl | rfl)
    · exact Nat.sqrt_zero
    · exact Nat.sqrt_one

/-- One below a square the root is one smaller. -/
theorem isqrt_square_pred {k : Nat} (hk : 1 ≤ k) : isqrt (k * k - 1) = k - 1 := by
  obtain ⟨j, rfl⟩ := Nat.exists_eq_add_of_le' hk
  rw [isqrtIsTheFloorRoot, Nat.add_sub_cancel]
  have hsquare : (j + 1) * (j + 1) = j * j + 2 * j + 1 := by ring
  omega

/-- The root of a non-negative value of `n + 1` bits fits half as many bits, rounded up. -/
theorem isqrt_largest_lt (n : Nat) : isqrt (2 ^ n - 1) < 2 ^ ((n + 1) / 2) := by
  rw [isqrt_eq_sqrt, Nat.sqrt_lt]
  calc 2 ^ n - 1 < 2 ^ n := Nat.sub_lt (Nat.two_pow_pos n) Nat.one_pos
    _ ≤ 2 ^ ((n + 1) / 2 + (n + 1) / 2) := Nat.pow_le_pow_right (by decide) (by omega)
    _ = 2 ^ ((n + 1) / 2) * 2 ^ ((n + 1) / 2) := Nat.pow_add ..

/-- Settles O32: the root at fixed values by R113's two inequalities, the general properties from the floor root. -/
theorem isqrtHasTheListedProperties : Obligations.IsqrtHasTheListedProperties := by
  have hfloor := isqrtIsTheFloorRoot
  refine ⟨(hfloor 0 0).2 (by decide), (hfloor 1 1).2 (by decide), (hfloor 2 1).2 (by decide),
    (hfloor 3 1).2 (by decide), (hfloor 4 2).2 (by decide), fun k => ?_, fun k => isqrt_square_pred,
    fun u v huv => ?_, fun v => ⟨isqrt_le_self v, isqrt_eq_self_iff v⟩, fun cellBits _ => isqrt_largest_lt _,
    (hfloor _ _).2 (by decide), (hfloor _ _).2 (by decide)⟩
  · rw [isqrt_eq_sqrt, Nat.sqrt_eq]
  · rw [isqrt_eq_sqrt, isqrt_eq_sqrt]
    exact Nat.sqrt_le_sqrt huv

@[simp] theorem isqrtValue_natCast (v : Nat) : isqrtValue v = isqrt v := rfl

/-- The root of a cell value that has passed the sign test, as R110 states it. -/
theorem isqrtValue_floor {v : Int} (hv : 0 ≤ v) :
    0 ≤ isqrtValue v ∧ isqrtValue v * isqrtValue v ≤ v ∧ v < (isqrtValue v + 1) * (isqrtValue v + 1) := by
  lift v to Nat using hv
  obtain ⟨hle, hlt⟩ := (isqrtIsTheFloorRoot v _).1 rfl
  rw [isqrtValue_natCast]
  exact ⟨Int.natCast_nonneg _, by exact_mod_cast hle, by exact_mod_cast hlt⟩

/-- The root of a value is at most the value. -/
theorem isqrtValue_le {v : Int} (hv : 0 ≤ v) : isqrtValue v ≤ v := by
  lift v to Nat using hv
  exact Int.ofNat_le.2 (isqrt_le_self v)

end Sys2Proof.Proofs
end

section
/-! PROOFS. The cell range of a legal machine (00_scope.md R4, 10_state.md R12). -/

namespace Sys2Proof.Proofs

open Sys2Proof.Machine

/-- The cell range of R12 as two inequalities on integers. -/
theorem holdsValue_iff (p : Params) (v : Int) :
    p.holdsValue v = true ↔ -2 ^ (p.cellBits - 1) ≤ v ∧ v ≤ 2 ^ (p.cellBits - 1) - 1 := by
  rw [Params.holdsValue, Bool.and_eq_true, decide_eq_true_eq, decide_eq_true_eq, Int.le_sub_one_iff]

/-- A legal cell has at least 24 bits (00_scope.md R4). -/
theorem cellBits_ge_of_valid {p : Params} (h : p.valid = true) : 24 ≤ p.cellBits := by
  simp only [Params.valid, Bool.and_eq_true, decide_eq_true_eq] at h
  obtain ⟨⟨-, hbits⟩, -⟩ := h
  exact hbits

/-- The top bit of a value's stored form is its sign (10_state.md R12). -/
theorem storedForm_sign {p : Params} {v : Int} (hbits : 0 < p.cellBits) (hv : p.holdsValue v = true) :
    (storedForm p.cellBits v).getLsbD (p.cellBits - 1) = true ↔ v < 0 := by
  obtain ⟨hlo, hhi⟩ := (holdsValue_iff p v).1 hv
  have hint : (storedForm p.cellBits v).toInt = v := BitVec.toInt_ofInt_eq_self hbits hlo (by omega)
  rw [← BitVec.msb_eq_getLsbD_last, BitVec.msb_eq_toInt, hint, decide_eq_true_eq]

end Sys2Proof.Proofs
end

section
/-! PROOFS. `SQRT`: what it stores, which fault it enters, and `NegativeOperand` (42_sqrt_alu.md R110, R111). -/

namespace Sys2Proof.Proofs

open Sys2Proof.Machine

/-- `SQRT` where the value reached through the pointer is below zero. -/
theorem exec_sqrt_negative_at {d p va : Nat} {s : State} (hp : p < s.params.memCells) (hva : (va : Int) = s.cell p)
    (hlt : va < s.params.memCells) (hneg : s.cell va < 0) :
    exec (.sqrt d p) s = .next (s.takeFault (.negativeOperand (s.cell va))) := by
  have hto : (s.cell p).toNat = va := by omega
  have hx := execSqrt_negative (d := d) hp (by omega) (by omega) (by rwa [hto])
  rwa [hto] at hx

/-- `SQRT` where the value has a root and the destination does not exist. -/
theorem exec_sqrt_badDst_at {d p va : Nat} {s : State} (hp : p < s.params.memCells) (hva : (va : Int) = s.cell p)
    (hlt : va < s.params.memCells) (hnonneg : 0 ≤ s.cell va) (hd : s.params.memCells ≤ d) :
    exec (.sqrt d p) s = .next (s.takeFault (.addressOutOfRange d)) := by
  have hto : (s.cell p).toNat = va := by omega
  exact execSqrt_badDst hp (by omega) (by omega) (by rwa [hto]) hd

/-- Settles O26: the checks of pointer cell, value address, sign and destination in this order; what is stored is the
floor root. -/
theorem sqrtStoresTheFloorRoot : Obligations.SqrtStoresTheFloorRoot := by
  intro dstAddr ptrAddr s hwf
  refine ⟨fun valueAddr hptr hva hlt hnonneg hdst => ?_, fun hptr => ?_, fun hptr hbad => ?_,
    fun valueAddr hptr hva hlt hneg => ?_, fun valueAddr hptr hva hlt hnonneg hdst => ?_, fun w hlt hc => ?_⟩
  · obtain ⟨t, hx, hframe, hval, hcells, hstep⟩ :=
      store_completes 5 hwf (exec_sqrt_at hptr hva hlt hnonneg hdst)
    refine ⟨t, hx, hframe, ?_, hcells, hstep⟩
    rw [hval]
    exact isqrtValue_floor hnonneg
  · exact execSqrt_badPtr hptr
  · exact execSqrt_badValueAddr hptr hbad
  · exact exec_sqrt_negative_at hptr hva hlt hneg
  · exact exec_sqrt_badDst_at hptr hva hlt hnonneg hdst
  · exact decode_bytesOfWord (op := .sqrt) hlt hc

/-- The instruction is a `SQRT` whose pointer cell and value cell exist and whose value is below zero
(42_sqrt_alu.md R111). -/
def TakesNegativeRoot (i : Instr) (s : State) : Prop :=
  ∃ dstAddr ptrAddr valueAddr : Nat, i = .sqrt dstAddr ptrAddr ∧ ptrAddr < s.params.memCells ∧
    (valueAddr : Int) = s.cell ptrAddr ∧ valueAddr < s.params.memCells ∧ s.cell valueAddr < 0

/-- A `SQRT` of a value below zero enters `NegativeOperand`. -/
theorem exec_of_takesNegativeRoot {i : Instr} {s : State} (h : TakesNegativeRoot i s) :
    ∃ v, exec i s = .next (s.takeFault (.negativeOperand v)) := by
  obtain ⟨d, p, va, rfl, hp, hva, hlt, hneg⟩ := h
  exact ⟨_, exec_sqrt_negative_at hp hva hlt hneg⟩

/-- The write that ends an instruction records no fault but that of a destination without a cell. -/
theorem settle_checkedWrite_cause {s t : State} {d : Nat} {v : Int}
    (hx : settle s (checkedWrite s (direct d) v) = .next t) : t.cause = s.cause ∨ t.cause = .addressOutOfRange := by
  rcases checkedWrite_direct_cases s d v with ⟨-, hw⟩ | ⟨-, hw⟩
  · rw [hw] at hx
    cases hx
    exact .inl rfl
  · rw [hw] at hx
    cases hx
    exact .inr rfl

/-- `WRITE` with an existing source comes down to the write of its value. -/
theorem execWrite_toWrite {src dst : Nat} {s : State} (h : src < s.params.memCells) :
    execWrite src dst s = settle s (checkedWrite s (direct dst) (s.cell src)) := by
  rw [execWrite, checkedRead_direct h]
  rfl

/-- An instruction keeps the cause or records an address without a cell, unless it is a `SQRT` of a value below zero. -/
theorem exec_cause_cases {i : Instr} {s t : State} (hx : exec i s = .next t) (hroot : ¬ TakesNegativeRoot i s) :
    t.cause = s.cause ∨ t.cause = .addressOutOfRange := by
  cases i with
  | load c a => exact settle_checkedWrite_cause hx
  | write src dst =>
    rcases Nat.lt_or_ge src s.params.memCells with h | h
    · exact settle_checkedWrite_cause ((execWrite_toWrite h).symm.trans hx)
    · cases (execWrite_badSrc h).symm.trans hx
      exact .inr rfl
  | read p d o =>
    rcases Nat.lt_or_ge p s.params.memCells with h | h
    · by_cases he : s.cell p + o < 0 ∨ (s.params.memCells : Int) ≤ s.cell p + o
      · cases (execRead_badEa h he).symm.trans hx
        exact .inr rfl
      · exact settle_checkedWrite_cause ((execRead_toWrite h (by omega) (by omega)).symm.trans hx)
    · cases (execRead_badPtr h).symm.trans hx
      exact .inr rfl
  | sqrt d p =>
    rcases Nat.lt_or_ge p s.params.memCells with h | h
    · by_cases he : s.cell p < 0 ∨ (s.params.memCells : Int) ≤ s.cell p
      · cases (execSqrt_badValueAddr h he).symm.trans hx
        exact .inr rfl
      · have hnonneg : 0 ≤ s.cell (s.cell p).toNat := by
          by_contra hneg
          exact hroot ⟨d, p, (s.cell p).toNat, rfl, h, by omega, by omega, by omega⟩
        have hto := execSqrt_toSignTest (d := d) h (by omega) (by omega)
        rw [signTest_ok hnonneg] at hto
        exact settle_checkedWrite_cause (hto.symm.trans hx)
    · cases (execSqrt_badPtr h).symm.trans hx
      exact .inr rfl

/-- `NegativeOperand` becomes the cause exactly when the root of a value below zero is taken (42_sqrt_alu.md R111). -/
theorem exec_negativeOperand_iff {i : Instr} {s t : State} (hs : s.cause ≠ .negativeOperand)
    (hx : exec i s = .next t) : t.cause = .negativeOperand ↔ TakesNegativeRoot i s := by
  constructor
  · intro ht
    by_contra hroot
    rcases exec_cause_cases hx hroot with hc | hc
    · exact hs (hc.symm.trans ht)
    · cases hc.symm.trans ht
  · intro hroot
    obtain ⟨v, hv⟩ := exec_of_takesNegativeRoot hroot
    cases hv.symm.trans hx
    rfl

/-- Settles O30: only the sign test records `NegativeOperand`, and it does so below zero; the sign is the top bit of the
stored form, which holds every value in range exactly. -/
theorem negativeOperandExactlyOnNegativeRoot : Obligations.NegativeOperandExactlyOnNegativeRoot := by
  refine ⟨fun i s t hs hx => exec_negativeOperand_iff hs hx, fun p v hp hv => storedForm_sign ?_ hv⟩
  exact Nat.lt_of_lt_of_le (by decide) (cellBits_ge_of_valid hp)

end Sys2Proof.Proofs
end

section
/-! PROOFS. No instruction makes a value outside the cell range, and without preloads every cell holds a constant of
`LOAD`, a copy or a root (42_sqrt_alu.md R116). -/

namespace Sys2Proof.Proofs

open Sys2Proof.Machine

/-! ### What a step can do to Memory and to the cause -/

/-- A step leaves Memory as it is, or completes the instruction it decoded, which writes one existing cell. -/
theorem step_mem_cases {s t : State} (hstep : step s = .next t) :
    t.mem = s.mem ∨
    ∃ i len v, decode s.prog s.pc = .ok (i, len) ∧ Written s i v ∧ storeField i < s.params.memCells ∧
      t.mem = s.mem.write (storeField i) v := by
  rcases step_cases s with ⟨-, h⟩ | ⟨-, -, h⟩ | ⟨f, -, -, -, h⟩ | ⟨i, len, e, -, -, -, h⟩ |
    ⟨i, len, v, -, hd, hw, hcell, -, h⟩ <;> cases h.symm.trans hstep
  case inl => exact .inl rfl
  case inr.inl => exact .inl (enterHalt_mem s)
  case inr.inr.inl => exact .inl (takeFault_mem s _)
  case inr.inr.inr.inl => exact .inl (takeFault_mem s e)
  case inr.inr.inr.inr => exact .inr ⟨i, len, v, hd, hw, hcell, rfl⟩

/-- A decode fault is not `NegativeOperand` (60_exceptions.md R121, R122). -/
theorem ofDecode_cause_ne_negativeOperand (f : DecodeFault) : (Trap.ofDecode f).cause ≠ .negativeOperand := by
  cases f <;> exact Cause.noConfusion

/-- A step records `NegativeOperand` only where some cell is below zero. -/
theorem step_negativeOperand {s t : State} (hs : s.cause ≠ .negativeOperand) (hstep : step s = .next t)
    (ht : t.cause = .negativeOperand) : ∃ a, s.cell a < 0 := by
  rcases step_cases s with ⟨-, h⟩ | ⟨-, -, h⟩ | ⟨f, -, -, -, h⟩ | ⟨i, len, e, -, -, hx, h⟩ |
    ⟨i, len, v, -, -, -, -, -, h⟩ <;> cases h.symm.trans hstep
  case inl => exact absurd ht hs
  case inr.inl => exact absurd ht hs
  case inr.inr.inl => exact absurd ht (ofDecode_cause_ne_negativeOperand f)
  case inr.inr.inr.inl =>
    obtain ⟨-, -, va, -, -, -, -, hneg⟩ := (exec_negativeOperand_iff hs hx).1 ht
    exact ⟨va, hneg⟩
  case inr.inr.inr.inr => exact absurd ht hs

/-! ### Which values an instruction can write -/

/-- The constant of a decoded `LOAD` fits its 23-bit field (30_encoding.md R51). -/
theorem decoded_const_lt {prog : List Byte} {o len const addr : Nat}
    (h : decode prog o = .ok (.load const addr, len)) : const < 2 ^ 23 := by
  obtain ⟨b, op, -, -, -, hi, -⟩ := decode_ok_iff.1 h
  cases op with
  | load =>
    cases hi
    exact slice_lt _ 29 7
  | read => cases hi
  | write => cases hi
  | sqrt => cases hi

/-- Every cell holds a value from `lo` to `hi`. `State.CellsMade` is the case of 0 and 8388607. -/
def CellsWithin (lo hi : Int) (s : State) : Prop := ∀ a, lo ≤ s.cell a ∧ s.cell a ≤ hi

theorem cellsMade_iff (s : State) : s.CellsMade ↔ CellsWithin 0 8388607 s := Iff.rfl

/-- The value a decoded instruction writes stays in any range that holds zero, the 23-bit constants and the cells: a
copy is a cell's value, and a root lies between zero and a cell's value. -/
theorem written_within {lo hi v : Int} {s : State} {i : Instr} {len : Nat} (hlo : lo ≤ 0) (hhi : 8388607 ≤ hi)
    (hcells : CellsWithin lo hi s) (hd : decode s.prog s.pc = .ok (i, len)) (hw : Written s i v) :
    lo ≤ v ∧ v ≤ hi := by
  cases hw with
  | load c a =>
    have hc := decoded_const_lt hd
    omega
  | write src dst => exact hcells src
  | read p d o => exact hcells _
  | sqrt d p hnonneg =>
    exact ⟨hlo.trans (isqrtValue_floor hnonneg).1, (isqrtValue_le hnonneg).trans (hcells _).2⟩

/-! ### The cell range -/

/-- In a Memory in range every cell is in the range. -/
theorem cellsWithin_of_bounded {s : State} (h : s.mem.bounded s.params = true) :
    CellsWithin (-2 ^ (s.params.cellBits - 1)) (2 ^ (s.params.cellBits - 1) - 1) s :=
  fun a => (holdsValue_iff _ _).1 (Memory.holdsValue_read h a)

/-- With legal parameters a step keeps every listed cell in range. -/
theorem step_keeps_bounded {s t : State} (hp : s.params.valid = true) (hb : s.mem.bounded s.params = true)
    (hstep : step s = .next t) : t.mem.bounded t.params = true := by
  rw [(step_keeps_prog_params hstep).2]
  rcases step_mem_cases hstep with hmem | ⟨i, len, v, hd, hw, hcell, hmem⟩
  · rwa [hmem]
  · have hmax : (2 : Int) ^ 23 ≤ 2 ^ (s.params.cellBits - 1) :=
      pow_le_pow_right₀ (by decide) (Nat.le_sub_one_of_lt (cellBits_ge_of_valid hp))
    have hv := written_within (by omega) (by omega) (cellsWithin_of_bounded hb) hd hw
    rw [hmem]
    exact Memory.bounded_write hb ((holdsAddr_iff _ _).2 (by omega)) ((holdsValue_iff _ _).2 hv)

/-! ### Runs without preloads -/

/-- What holds in every run from a launch without preloads. -/
structure NothingPreloaded (s : State) : Prop where
  mem_wf : s.mem.wf = true
  cells_made : s.CellsMade
  cause_ne : s.cause ≠ .negativeOperand

/-- A launch without preloads starts in the reset state of its parameters and Program. -/
theorem launch_without_preloads {p : Params} {prog : List Byte} {s : State} (h : launch p prog [] = .next s) :
    s = State.freshWith p prog := by
  unfold launch at h
  split at h
  · cases h
  · split at h
    · cases h
    · cases h
      rfl

theorem nothingPreloaded_freshWith (p : Params) (prog : List Byte) : NothingPreloaded (State.freshWith p prog) where
  mem_wf := Memory.wf_nil
  cells_made := fun _ => ⟨le_rfl, (by decide : (0 : Int) ≤ 8388607)⟩
  cause_ne := Cause.noConfusion

/-- A step keeps every cell at a value that an instruction can have made. -/
theorem step_keeps_cellsMade {s t : State} (hwf : s.mem.wf = true) (hmade : s.CellsMade) (hstep : step s = .next t) :
    t.CellsMade := by
  intro b
  rcases step_mem_cases hstep with hmem | ⟨i, len, v, hd, hw, -, hmem⟩
  · rw [State.cell, hmem]
    exact hmade b
  · rw [State.cell, hmem, Memory.read_write hwf]
    split
    · exact written_within le_rfl le_rfl ((cellsMade_iff s).1 hmade) hd hw
    · exact hmade b

/-- A step from such a state leads to one: no cell is below zero, so no root of a negative value is taken. -/
theorem step_keeps_nothingPreloaded {s t : State} (hs : NothingPreloaded s) (hstep : step s = .next t) :
    NothingPreloaded t where
  mem_wf := (step_changes_only_named hs.mem_wf hstep).1
  cells_made := step_keeps_cellsMade hs.mem_wf hs.cells_made hstep
  cause_ne := by
    intro ht
    obtain ⟨a, hneg⟩ := step_negativeOperand hs.cause_ne hstep ht
    exact absurd (hs.cells_made a).1 hneg.not_ge

/-- Settles O37: one bound on written values, used for the cell range and, along the run, for the values made from
zeroed Memory; a sum of such a value and an offset is not below zero. -/
theorem noDataOverflow : Obligations.NoDataOverflow := by
  refine ⟨fun s t => step_keeps_bounded, fun p prog s t n hlaunch hrun => ?_⟩
  rw [launch_without_preloads hlaunch] at hrun
  have ht : NothingPreloaded t := runSteps_induction (fun _ _ => step_keeps_nothingPreloaded) n
    (nothingPreloaded_freshWith p prog) hrun
  exact ⟨ht.cells_made, ht.cause_ne, fun a offset => add_nonneg (ht.cells_made a).1 (Int.natCast_nonneg offset)⟩

end Sys2Proof.Proofs
end

section
/-! PROOFS. An execution path makes the checks of 20_memory.md R44 one after the other, so its outcome is that of the
first one that fails (60_exceptions.md R131). -/

namespace Sys2Proof.Proofs

open Sys2Proof.Machine

/-! ### The one check of each operation a path is made of -/

/-- The listed address check is the port's: it passes exactly where no `AddressOutOfRange` is raised. -/
theorem addressCheck_eq (s : State) (a : Int) :
    addressCheck s a = if a < 0 ∨ (s.params.memCells : Int) ≤ a then some (.addressOutOfRange a) else none := by
  by_cases h : a < 0 ∨ (s.params.memCells : Int) ≤ a
  · rw [if_pos h, addressCheck, if_neg]
    rw [holdsAddr_iff]
    omega
  · rw [if_neg h, addressCheck, if_pos]
    rw [holdsAddr_iff]
    omega

theorem checkedRead_eq_check (s : State) (a : Int) :
    checkedRead s a = (addressCheck s a).elim (.ok (s.cell a.toNat)) .error := by
  rw [addressCheck_eq, checkedRead]
  split <;> rfl

theorem checkedWrite_eq_check (s : State) (a v : Int) :
    checkedWrite s a v = (addressCheck s a).elim (.ok { s with mem := s.mem.write a.toNat v }) .error := by
  rw [addressCheck_eq, checkedWrite]
  split <;> rfl

theorem signTest_eq_check (v : Int) : signTest v = (signCheck v).elim (.ok v) .error := by
  rw [signCheck, signTest]
  split <;> rfl

/-! ### Paths -/

/-- The outcome of an instruction begun in `s` whose first failing check is `failure`: entry of that fault, or, where no
check fails, completion with only Memory changed. -/
def Reports (s : State) : Option Trap → Host.Outcome State Fault Refusal → Prop
  | some e, x => x = .next (s.takeFault e)
  | none, x => ∃ t, x = .next t ∧ t = { s with mem := t.mem }

/-- A path that begins with check `c` and goes on with `k` where it passes: the first failing check is `c`, or else the
first one of the rest. -/
theorem reports_bind {α : Type} {s : State} {c : Option Trap} {cs : List (Option Trap)} {m : Except Trap α} {v : α}
    {k : α → Except Trap State} (hm : m = c.elim (.ok v) .error)
    (hk : Reports s (cs.findSome? id) (settle s (k v))) : Reports s ((c :: cs).findSome? id) (settle s (m >>= k)) := by
  subst hm
  cases c with
  | none => exact hk
  | some e => exact settle_error s e

/-- The path of a write, which is the last access of every instruction (20_memory.md R44). -/
theorem reports_checkedWrite (s : State) (a v : Int) :
    Reports s ([addressCheck s a].findSome? id) (settle s (checkedWrite s a v)) := by
  rw [checkedWrite_eq_check]
  cases addressCheck s a with
  | none => exact ⟨_, rfl, rfl⟩
  | some e => exact settle_error s e

/-- `READ` as its three accesses, the pointer's addressing mode spelled out (41_data_movement.md R102). -/
theorem execRead_eq_accesses (ptrAddr dstAddr offset : Nat) (s : State) :
    execRead ptrAddr dstAddr offset s = settle s (checkedRead s (direct ptrAddr) >>= fun pointer =>
      checkedRead s (effectiveAddress pointer offset) >>= checkedWrite s (direct dstAddr)) := by
  rw [execRead, indirectDisp, bind_assoc]
  rfl

/-- Every instruction makes the listed checks in the listed order and reports the first that fails. -/
theorem exec_reports_firstFailure (i : Instr) (s : State) : Reports s (firstFailure s i) (exec i s) := by
  cases i with
  | load const addr => exact reports_checkedWrite s addr const
  | write srcAddr dstAddr =>
    exact reports_bind (checkedRead_eq_check s srcAddr) (reports_checkedWrite s dstAddr _)
  | read ptrAddr dstAddr offset =>
    change Reports s _ (execRead ptrAddr dstAddr offset s)
    rw [execRead_eq_accesses]
    exact reports_bind (checkedRead_eq_check s ptrAddr) <|
      reports_bind (checkedRead_eq_check s (s.cell ptrAddr + offset)) (reports_checkedWrite s dstAddr _)
  | sqrt dstAddr ptrAddr =>
    exact reports_bind (checkedRead_eq_check s ptrAddr) <|
      reports_bind (checkedRead_eq_check s (s.cell ptrAddr)) <|
        reports_bind (signTest_eq_check _) (reports_checkedWrite s dstAddr _)

/-- Settles O29: the path of each instruction is the chain of its listed checks, read at each kind of first failure. -/
theorem firstFailingCheckIsReported : Obligations.FirstFailingCheckIsReported := by
  intro i s
  have h := exec_reports_firstFailure i s
  refine ⟨fun a ha => ?_, fun v hv => ?_, fun hnone => ?_⟩
  · rwa [ha] at h
  · rwa [hv] at h
  · rwa [hnone] at h

end Sys2Proof.Proofs
end

section
/-! PROOFS. What reset leaves (70_reset_and_hazards.md R150). -/

namespace Sys2Proof.Proofs

open Sys2Proof.Machine

/-- Reset lists no cell, so each reads as the unlisted value. -/
@[simp] theorem hostReset_cell (s : State) (a : Nat) : s.hostReset.cell a = 0 := Memory.read_nil a

/-- The core's initial state is the host's reset of itself, so what a reset leaves holds of it too. -/
theorem hostReset_reset : State.reset.hostReset = State.reset := rfl

/-- Settles O1: each field after the host's reset by its own lemma, and the initial state is such a state. -/
theorem resetGivesEveryResetValue : Obligations.ResetGivesEveryResetValue := by
  constructor
  · intro s
    exact ⟨hostReset_cell s, hostReset_pc s, hostReset_status s, hostReset_cause s, hostReset_finfo s,
      hostReset_params s, hostReset_prog s⟩
  · rw [← hostReset_reset]
    exact ⟨hostReset_cell _, hostReset_pc _, hostReset_status _, hostReset_cause _, hostReset_finfo _⟩

end Sys2Proof.Proofs
end

section
/-! PROOFS. Sequential decoding of an encoded Program (30_encoding.md R60, R61, R66). -/

namespace Sys2Proof.Proofs

/-- Sequential decoding at or past the end of the Program finds nothing, with any fuel. -/
theorem decodeFrom_atEnd {prog : List Byte} {o : Nat} (hend : prog.length ≤ o) (fuel : Nat) :
    decodeFrom prog fuel o = .ok [] := by
  cases fuel with
  | zero => rfl
  | succ fuel => rw [decodeFrom, if_pos hend]

/-- Sequential decoding puts the instruction that decodes at an offset in front of what it finds after its group. The
fuel covers the Program's remaining bytes, so one unit of it is left for this group. -/
theorem decodeFrom_cons {prog : List Byte} {fuel o len : Nat} {i : Instr} {rest : List Instr}
    (hfuel : prog.length ≤ o + fuel) (hd : decode prog o = .ok (i, len))
    (hrest : decodeFrom prog (fuel - 1) (o + len) = .ok rest) : decodeFrom prog fuel o = .ok (i :: rest) := by
  have hb := decode_ok_bounds hd
  cases fuel with
  | zero => omega
  | succ fuel =>
    rw [Nat.add_sub_cancel] at hrest
    have hnot : ¬ prog.length ≤ o := by omega
    simp only [decodeFrom, if_neg hnot, hd, hrest]

/-- Whatever stands before an encoded listing, sequential decoding from its first byte finds the listing, masked. -/
theorem decodeFrom_encodeProgram {is : List Instr} {fuel : Nat} (before : List Byte)
    (hfuel : (encodeProgram is).length ≤ fuel) :
    decodeFrom (before ++ encodeProgram is) fuel before.length = .ok (is.map Instr.maskFields) := by
  induction is generalizing before fuel with
  | nil => exact decodeFrom_atEnd (by simp [encodeProgram]) fuel
  | cons i is ih =>
    have hsplit : before ++ encodeProgram (i :: is) = before ++ encode i ++ encodeProgram is := by
      rw [encodeProgram, List.append_assoc]
    rw [encodeProgram, List.length_append, length_encode] at hfuel
    have hlen : i.byteLength = 5 ∨ i.byteLength = 6 := byteLength_cases i.opcode
    have hafter := ih (before ++ encode i) (fuel := fuel - 1) (by omega)
    rw [List.length_append, length_encode] at hafter
    rw [hsplit, List.map_cons]
    refine decodeFrom_cons ?_ (decodeOfEncodeMasksOperands.1 i before (encodeProgram is)) hafter
    simp only [List.length_append, length_encode]
    omega

/-- Settles O16: by induction on the listing, each group decodes where it stands and the rest is found after it. -/
theorem sequentialDecodingRecoversTheProgram : Obligations.SequentialDecodingRecoversTheProgram :=
  fun _ => decodeFrom_encodeProgram [] le_rfl

end Sys2Proof.Proofs
end

section
/-! PROOFS. `pc` stays on an instruction boundary (10_state.md R15). -/

namespace Sys2Proof.Proofs

open Sys2Proof.Machine

/-- Settles O35: a step that leaves the machine running moved `pc` over the group that decodes there, any other kept
`pc`; the Program is the same. -/
theorem pcStaysOnABoundary : Obligations.PcStaysOnABoundary := by
  intro s t hboundary hstep
  rw [(step_keeps_prog_params hstep).1]
  by_cases ht : t.status = .run
  · obtain ⟨i, len, hd, hpc⟩ := step_running hstep ht
    rw [hpc]
    exact ⟨hboundary.next hd, Nat.le_add_right _ _⟩
  · rw [step_stopping_keeps_pc hstep ht]
    exact ⟨hboundary, le_rfl⟩

end Sys2Proof.Proofs
end

section
/-! PROOFS. Every step keeps the state invariant (10_state.md R12, R15, R18). -/

namespace Sys2Proof.Proofs

open Sys2Proof.Machine

/-- The part of the invariant that speaks of the run's progress alone: `pc` inside the Program and at its end on `HALT`,
a cause exactly on `FAULT`. -/
structure ProgressInv (s : State) : Prop where
  pc_le : s.pc ≤ s.prog.length
  halt_at_end : s.status = .halt → s.pc = s.prog.length
  cause_iff_fault : s.cause ≠ .none ↔ s.status = .fault

theorem progressInv_of_inv {s : State} (h : s.Inv) : ProgressInv s := ⟨h.pc_le, h.halt_at_end, h.cause_iff_fault⟩

/-- A running machine at the start of its Program with no cause recorded has made no progress to keep track of. -/
theorem progressInv_of_start {s : State} (hrun : s.status = .run) (hpc : s.pc = 0) (hcause : s.cause = .none) :
    ProgressInv s where
  pc_le := by omega
  halt_at_end := by simp [hrun]
  cause_iff_fault := by simp [hrun, hcause]

/-- Fault entry keeps `pc` and records a cause. -/
theorem progressInv_takeFault {s : State} (hpc : s.pc ≤ s.prog.length) (e : Trap) : ProgressInv (s.takeFault e) where
  pc_le := hpc
  halt_at_end := by simp
  cause_iff_fault := by simp [trap_cause_ne_none]

/-- Each of the five things a step can do keeps the run's bookkeeping: it halts only at the end, enters a fault with its
cause, or moves over a group that ends inside the Program. -/
theorem step_keeps_progressInv {s t : State} (hs : ProgressInv s) (hstep : step s = .next t) : ProgressInv t := by
  rcases step_cases s with ⟨-, h⟩ | ⟨hrun, hend, h⟩ | ⟨f, -, -, -, h⟩ | ⟨i, len, e, -, -, -, h⟩ |
    ⟨i, len, v, hrun, hd, -, -, -, h⟩ <;> cases h.symm.trans hstep
  case inl => exact hs
  case inr.inl =>
    have hcause := hs.cause_iff_fault
    rw [hrun] at hcause
    exact ⟨hs.pc_le, fun _ => hs.pc_le.antisymm hend, by simpa using hcause⟩
  case inr.inr.inl => exact progressInv_takeFault hs.pc_le _
  case inr.inr.inr.inl => exact progressInv_takeFault hs.pc_le e
  case inr.inr.inr.inr =>
    exact ⟨(decode_ok_bounds hd).1, fun ht => (by cases hrun.symm.trans ht), hs.cause_iff_fault⟩

/-- Settles O34: the parameters and the Program are constant, Memory stays canonical and in range, and the run's
bookkeeping is kept. -/
theorem stepKeepsTheInvariant : Obligations.StepKeepsTheInvariant := by
  intro s t hs hstep
  obtain ⟨hprog, hparams⟩ := step_keeps_prog_params hstep
  obtain ⟨hpc, hhalt, hcause⟩ := step_keeps_progressInv (progressInv_of_inv hs) hstep
  exact {
    params_valid := by rw [hparams]; exact hs.params_valid
    prog_fits := by rw [hprog, hparams]; exact hs.prog_fits
    mem_wf := (step_changes_only_named hs.mem_wf hstep).1
    mem_bounded := step_keeps_bounded hs.params_valid hs.mem_bounded hstep
    pc_le := hpc
    halt_at_end := hhalt
    cause_iff_fault := hcause }

end Sys2Proof.Proofs
end

section
/-! PROOFS. A run that halts has executed the whole listing (40_sequencer_decoder.md R83). -/

namespace Sys2Proof.Proofs

open Sys2Proof.Machine

/-- From any offset, a run that halts met a group that decodes at each step and stood at the end at the last: sequential
decoding finds that listing, and the end state is its straight-line execution. -/
theorem halted_run_executes_listing {n fuel : Nat} {s t : State} (hrun : s.status = .run)
    (hsteps : runSteps n s = .next t) (ht : t.status = .halt) (hfuel : s.prog.length ≤ s.pc + fuel) :
    ∃ is, decodeFrom s.prog fuel s.pc = .ok is ∧ t = straightLine is s := by
  induction n generalizing s fuel with
  | zero =>
    cases hsteps
    cases hrun.symm.trans ht
  | succ n ih =>
    obtain ⟨u, hu⟩ := step_next s
    rw [runSteps_succ hu] at hsteps
    by_cases hurun : u.status = .run
    · obtain ⟨i, len, hd, hpc⟩ := step_running hu hurun
      obtain ⟨hprog, -⟩ := step_keeps_prog_params hu
      have hb := decode_ok_bounds hd
      obtain ⟨rest, hrest, rfl⟩ := ih (fuel := fuel - 1) hurun hsteps (by rw [hprog, hpc]; omega)
      rw [hprog, hpc] at hrest
      refine ⟨i :: rest, decodeFrom_cons hfuel hd hrest, ?_⟩
      rw [straightLine_cons rest hrun hd hu, if_pos hurun]
    · rw [runSteps_stopped hurun] at hsteps
      cases hsteps
      have hend := atEnd_of_step_halted hrun hu ht
      cases (step_atEnd hrun hend).symm.trans hu
      exact ⟨[], decodeFrom_atEnd hend fuel, rfl⟩

/-- Settles O40: the listing by induction on the run; where it stands and that no cause is recorded by the bookkeeping
that every step keeps. -/
theorem cleanEndExecutedEverything : Obligations.CleanEndExecutedEverything := by
  intro s t n hrun hpc hcause hsteps ht
  obtain ⟨is, his, hline⟩ :=
    halted_run_executes_listing (fuel := s.prog.length) hrun hsteps ht (Nat.le_add_left _ _)
  have hinv : ProgressInv t :=
    runSteps_induction (fun _ _ => step_keeps_progressInv) n (progressInv_of_start hrun hpc hcause) hsteps
  obtain ⟨hprog, -⟩ := runSteps_keeps_prog_params hsteps
  refine ⟨is, by rwa [hpc] at his, hline, by rw [hinv.halt_at_end ht, hprog], ?_⟩
  by_contra hne
  cases ht.symm.trans (hinv.cause_iff_fault.1 hne)

end Sys2Proof.Proofs
end

section
/-! PROOFS. The fault record says what the bytes at `pc` and the cells give (60_exceptions.md R120 to R124, R127). -/

namespace Sys2Proof.Proofs

open Sys2Proof.Machine

/-! ### Which faults the checks of an instruction can find -/

/-- An address check finds nothing but its own address, and that only where the cell does not exist. -/
theorem addressCheck_eq_some {s : State} {a : Int} {e : Trap} (h : addressCheck s a = some e) :
    e = .addressOutOfRange a ∧ s.params.holdsAddr a = false := by
  unfold addressCheck at h
  split at h
  · cases h
  · next hbad => cases h; exact ⟨rfl, Bool.not_eq_true _ ▸ hbad⟩

/-- The sign check finds nothing but its own value, and that only below zero. -/
theorem signCheck_eq_some {v : Int} {e : Trap} (h : signCheck v = some e) : e = .negativeOperand v ∧ v < 0 := by
  unfold signCheck at h
  split at h
  · next hneg => cases h; exact ⟨rfl, hneg⟩
  · cases h

/-- Every check of an instruction is one of an address, or the sign check of a `SQRT`. -/
theorem accessChecks_mem {s : State} {i : Instr} {c : Option Trap} (h : c ∈ accessChecks s i) :
    (∃ a, c = addressCheck s a) ∨ (∃ d p v, i = .sqrt d p ∧ c = signCheck v) := by
  cases i <;> simp only [accessChecks, List.mem_cons, List.not_mem_nil, or_false] at h
  case load => exact .inl ⟨_, h⟩
  case read => rcases h with h | h | h <;> exact .inl ⟨_, h⟩
  case write => rcases h with h | h <;> exact .inl ⟨_, h⟩
  case sqrt d p =>
    rcases h with h | h | h | h
    · exact .inl ⟨_, h⟩
    · exact .inl ⟨_, h⟩
    · exact .inr ⟨d, p, _, rfl, h⟩
    · exact .inl ⟨_, h⟩

/-- The fault an instruction's checks find is an address without a cell, or a value below zero that `SQRT` met. -/
theorem firstFailure_cases {s : State} {i : Instr} {e : Trap} (h : firstFailure s i = some e) :
    (∃ a, e = .addressOutOfRange a ∧ s.params.holdsAddr a = false) ∨
    (∃ d p v, i = .sqrt d p ∧ e = .negativeOperand v ∧ v < 0) := by
  obtain ⟨c, hc, he⟩ := List.exists_of_findSome?_eq_some h
  obtain rfl : c = some e := he
  rcases accessChecks_mem hc with ⟨a, ha⟩ | ⟨d, p, v, hi, hv⟩
  · exact .inl ⟨a, addressCheck_eq_some ha.symm⟩
  · exact .inr ⟨d, p, v, hi, signCheck_eq_some hv.symm⟩

/-- An instruction that enters a fault enters the one of its first failing check. -/
theorem firstFailure_of_exec_fault {s t : State} {i : Instr} (hrun : s.status = .run) (hx : exec i s = .next t)
    (ht : t.status = .fault) : ∃ e, firstFailure s i = some e ∧ t = s.takeFault e := by
  have hreports := exec_reports_firstFailure i s
  cases hfail : firstFailure s i with
  | none =>
    rw [hfail] at hreports
    obtain ⟨u, hu, hmem⟩ := hreports
    cases hu.symm.trans hx
    rw [hmem, withMem_status] at ht
    cases hrun.symm.trans ht
  | some e =>
    rw [hfail] at hreports
    cases hreports.symm.trans hx
    exact ⟨e, rfl, rfl⟩

/-! ### The fault record after a fault -/

/-- Without a cause a true fault record is the value 0 (10_state.md R19). -/
theorem faultRecord_iff_of_no_cause {s : State} (h : s.cause = .none) : s.faultRecord ↔ s.finfo = 0 := by
  rw [State.faultRecord, h]

/-- The decode stage records what the bytes at `pc` give: an illegal opcode, or a cut group
(60_exceptions.md R121, R122). -/
theorem faultRecord_of_decodeFault {s : State} {f : DecodeFault} (hpc : s.pc < s.prog.length)
    (hd : decode s.prog s.pc = .error f) : (s.takeFault (Trap.ofDecode f)).faultRecord := by
  cases f with
  | unknownOpcode k =>
    obtain ⟨b, hb, hop, hk⟩ := decode_unknownOpcode_iff.1 hd
    exact ⟨b, hb, hop, congrArg Int.ofNat hk⟩
  | unexpectedEndOfProgram k =>
    rcases decode_unexpectedEnd_iff.1 hd with ⟨hend, -⟩ | ⟨b, op, hb, hop, hlen, hk⟩
    · omega
    · exact ⟨b, op, hb, hop, congrArg Int.ofNat hk, hlen⟩

/-- The execute stage records the first failing check of the instruction at `pc` (60_exceptions.md R123, R124). -/
theorem faultRecord_of_firstFailure {s : State} {i : Instr} {len : Nat} {e : Trap}
    (hd : decode s.prog s.pc = .ok (i, len)) (h : firstFailure s i = some e) : (s.takeFault e).faultRecord := by
  rcases firstFailure_cases h with ⟨a, rfl, hbad⟩ | ⟨d, p, v, rfl, rfl, hneg⟩
  · exact ⟨i, len, a, hd, h, hbad, rfl⟩
  · obtain rfl : len = 5 := decode_ok_length hd
    exact ⟨d, p, v, hd, h, hneg, rfl⟩

/-- Settles O36: a step that does not fault keeps cause and `finfo` as they were, a faulting one records the decode
fault or the first failing check. -/
theorem stepKeepsTheFaultRecordTrue : Obligations.StepKeepsTheFaultRecordTrue := by
  intro s t hcause hrecord hstep
  have hquiet : s.status = .run → s.cause = .none ∧ s.finfo = 0 := fun hrun =>
    have hnone := hcause (by simp [hrun])
    ⟨hnone, (faultRecord_iff_of_no_cause hnone).1 hrecord⟩
  rcases step_cases s with ⟨-, h⟩ | ⟨hrun, -, h⟩ | ⟨f, -, hpc, hd, h⟩ | ⟨i, len, e, hrun, hd, hx, h⟩ |
    ⟨i, len, v, hrun, -, -, -, -, h⟩ <;> cases h.symm.trans hstep
  case inl => exact ⟨hrecord, hcause⟩
  case inr.inl =>
    obtain ⟨hnone, hzero⟩ := hquiet hrun
    exact ⟨(faultRecord_iff_of_no_cause hnone).2 hzero, fun _ => hnone⟩
  case inr.inr.inl => exact ⟨faultRecord_of_decodeFault hpc hd, fun ht => absurd rfl ht⟩
  case inr.inr.inr.inl =>
    obtain ⟨e', hfail, he⟩ := firstFailure_of_exec_fault hrun hx rfl
    rw [he]
    exact ⟨faultRecord_of_firstFailure hd hfail, fun ht => absurd rfl ht⟩
  case inr.inr.inr.inr =>
    obtain ⟨hnone, hzero⟩ := hquiet hrun
    exact ⟨Iff.mpr (faultRecord_iff_of_no_cause hnone) hzero, fun _ => hnone⟩

end Sys2Proof.Proofs
end

section
/-! PROOFS. What a decode depends on, what it gives, and where it faults (40_sequencer_decoder.md R84 to R88). -/

namespace Sys2Proof.Proofs

/-- The opcode of a byte, and with it the length of the byte's group, by its low 7 bits (30_encoding.md R51, R52). -/
theorem ofCode_opcodeBits_iff {b : Byte} {op : Opcode} :
    Opcode.ofCode (opcodeBits b) = some op ↔ b.toNat % 128 = op.code := by
  rw [ofCode_eq_some, opcodeBits_eq]

/-- Settles O12: the decoder cuts a group exactly where its opcode's length passes the end; the four opcodes have two
lengths. -/
theorem unexpectedEndExactlyOnCutGroups : Obligations.UnexpectedEndExactlyOnCutGroups := by
  intro prog o k
  rw [decode_unexpectedEnd_iff]
  simp only [ofCode_opcodeBits_iff]
  refine or_congr_right ⟨?_, ?_⟩
  · rintro ⟨b, op, hb, hop, hlen, hk⟩
    cases op with
    | load => exact .inl ⟨b, hb, .inl hop, hlen, hk⟩
    | read => exact .inl ⟨b, hb, .inr hop, hlen, hk⟩
    | write => exact .inr ⟨b, hb, .inl hop, hlen, hk⟩
    | sqrt => exact .inr ⟨b, hb, .inr hop, hlen, hk⟩
  · rintro (⟨b, hb, hop | hop, hlen, hk⟩ | ⟨b, hb, hop | hop, hlen, hk⟩)
    · exact ⟨b, .load, hb, hop, hlen, hk⟩
    · exact ⟨b, .read, hb, hop, hlen, hk⟩
    · exact ⟨b, .write, hb, hop, hlen, hk⟩
    · exact ⟨b, .sqrt, hb, hop, hlen, hk⟩

/-- Programs with the same bytes in a group have the same group. -/
theorem groupBytes_congr {prog prog' : List Byte} {o len : Nat} (h : ∀ k, k < len → prog'[o + k]? = prog[o + k]?) :
    groupBytes prog' o len = groupBytes prog o len := by
  refine List.ext_getElem? fun k => ?_
  rcases Nat.lt_or_ge k len with hk | hk
  · rw [getElem?_groupBytes prog' o hk, getElem?_groupBytes prog o hk, h k hk]
  · rw [groupBytes, groupBytes, List.getElem?_take, List.getElem?_take, if_neg hk.not_gt, if_neg hk.not_gt]

/-- A Program that has another's byte at an offset is longer than the offset. -/
theorem lt_length_of_getElem?_eq {prog prog' : List Byte} {k : Nat} (h : prog'[k]? = prog[k]?) (hk : k < prog.length) :
    k < prog'.length := by
  rw [List.getElem?_eq_getElem hk] at h
  exact (List.getElem?_eq_some_iff.1 h).1

/-- Settles O13: the opcode is the group's first byte, the Program reaches to its last, and the operands are cut out of
its bytes. -/
theorem decodeReadsOnlyItsGroup : Obligations.DecodeReadsOnlyItsGroup := by
  intro prog prog' o i len h hsame
  obtain ⟨-, hlen5, -⟩ := decode_ok_bounds h
  obtain ⟨b, op, hb, hop, hlen, rfl, rfl⟩ := decode_ok_iff.1 h
  have hlast := lt_length_of_getElem?_eq (hsame (op.byteLength - 1) (by omega)) (by omega)
  exact decode_ok_iff.2 ⟨b, op, (hsame 0 (by omega)).trans hb, hop, by omega, by rw [groupBytes_congr hsame], rfl⟩

/-- Every operand cut out of a word fits its field (30_encoding.md R59). -/
theorem wf_unpack (op : Opcode) (w : Nat) : (op.unpack w).wf = true := by
  cases op with
  | load => exact wf_load_iff.2 ⟨slice_lt w 29 7, slice_lt w 43 30⟩
  | read => exact wf_read_iff.2 ⟨⟨slice_lt w 20 7, slice_lt w 34 21⟩, slice_lt w 41 35⟩
  | write => exact wf_write_iff.2 ⟨slice_lt w 20 7, slice_lt w 34 21⟩
  | sqrt => exact wf_sqrt_iff.2 ⟨slice_lt w 20 7, slice_lt w 34 21⟩

/-- Settles O14: the decoder's bounds, its length by opcode, and the fields' widths. -/
theorem decodedInstructionIsWellFormed : Obligations.DecodedInstructionIsWellFormed := by
  intro prog o i len h
  obtain ⟨hend, -, -⟩ := decode_ok_bounds h
  refine ⟨?_, hend, ?_⟩
  · obtain ⟨b, op, -, -, -, rfl, -⟩ := decode_ok_iff.1 h
    exact wf_unpack op _
  · rw [decode_ok_length h]
    cases i <;> rfl

/-- Settles O6: the decoder run on each written-out group. -/
theorem writtenOutGroupsDecode : Obligations.WrittenOutGroupsDecode := ⟨by rfl, by rfl, by rfl, by rfl, by rfl⟩

end Sys2Proof.Proofs
end

section
/-! PROOFS. The encoder uses an operand's field bits only (30_encoding.md R60, R72). -/

namespace Sys2Proof.Proofs

/-- An instruction's word is that of its masked form: packing what was unpacked from it. -/
theorem encodeWord_maskFields (i : Instr) : encodeWord i.maskFields = encodeWord i := by
  obtain ⟨-, hc, hlt⟩ := encodeShape i
  rw [← unpack_encodeWord, encodeWord_unpack hc, Nat.mod_eq_of_lt hlt]

/-- Instructions with the same masked form have the same group. -/
theorem encode_congr {i j : Instr} (h : i.maskFields = j.maskFields) : encode i = encode j := by
  have hop : i.opcode = j.opcode := by rw [← opcode_maskFields i, h, opcode_maskFields]
  rw [encode, encode, Instr.byteLength, Instr.byteLength, hop, ← encodeWord_maskFields i, h, encodeWord_maskFields]

/-- Settles O15: a multiple of a field's size is what the mask drops. -/
theorem encoderDropsBitsAboveTheField : Obligations.EncoderDropsBitsAboveTheField := by
  refine fun a b c m n l => ⟨encode_congr ?_, encode_congr ?_, encode_congr ?_, encode_congr ?_⟩
  · simp only [maskFields_load, Nat.add_mul_mod_self_right]
  · simp only [maskFields_read, Nat.add_mul_mod_self_right]
  · simp only [maskFields_write, Nat.add_mul_mod_self_right]
  · simp only [maskFields_sqrt, Nat.add_mul_mod_self_right]

end Sys2Proof.Proofs
end

section
/-! PROOFS. What the host finds: the launch state, and Memory after the run (70_reset_and_hazards.md R155 to R158). -/

namespace Sys2Proof.Proofs

open Sys2Proof.Machine

/-! ### Preloads -/

/-- A preload of an existing cell with a value in range (70_reset_and_hazards.md R156). -/
def LegalPreload (p : Params) (c : Int × Int) : Prop := p.holdsAddr c.1 = true ∧ p.holdsValue c.2 = true

/-- Memory with the preloads made in their order. -/
def writeCells (m : Memory) (cells : List (Int × Int)) : Memory :=
  cells.foldl (fun m c => m.write c.1.toNat c.2) m

@[simp] theorem writeCells_nil (m : Memory) : writeCells m [] = m := rfl

@[simp] theorem writeCells_cons (m : Memory) (a v : Int) (cells : List (Int × Int)) :
    writeCells m ((a, v) :: cells) = writeCells (m.write a.toNat v) cells := rfl

/-- Preloading answers a state exactly when every preload is legal, and the state has them made. -/
theorem preload_eq_next_iff {cells : List (Int × Int)} {s t : State} :
    preload cells s = .next t ↔
      (∀ c ∈ cells, LegalPreload s.params c) ∧ t = { s with mem := writeCells s.mem cells } := by
  induction cells generalizing s with
  | nil => simp [preload, eq_comm]
  | cons c cells ih =>
    obtain ⟨a, v⟩ := c
    rw [preload, List.forall_mem_cons, writeCells_cons, LegalPreload]
    split
    · next ha => simp [ha]
    · next ha =>
      split
      · next hv => simp [hv]
      · next hv =>
        rw [ih]
        simp [ha, hv]

/-- The launch state is the reset state of legal parameters and a Program that fits, with legal preloads made. -/
theorem launch_eq_next_iff {p : Params} {prog : List Byte} {cells : List (Int × Int)} {s : State} :
    launch p prog cells = .next s ↔
      (p.valid = true ∧ prog.length < 2 ^ p.pcBits ∧ ∀ c ∈ cells, LegalPreload p c) ∧
        s = { State.freshWith p prog with mem := writeCells [] cells } := by
  rw [launch]
  split
  · next hp => simp [hp]
  · next hp =>
    split
    · next hlen => simp [hlen.not_gt]
    · next hlen =>
      rw [preload_eq_next_iff]
      simp [hp, Nat.lt_of_not_le hlen, State.freshWith, State.reset]

/-- What a launched Memory reads: at each cell its last preload, elsewhere what it read before. -/
theorem read_writeCells {cells : List (Int × Int)} {m : Memory} (hwf : m.wf = true)
    (haddr : ∀ c ∈ cells, 0 ≤ c.1) (a : Nat) :
    (writeCells m cells).read a =
      ((cells.reverse.find? fun c => c.1 == (a : Int)).map Prod.snd).getD (m.read a) := by
  induction cells generalizing m with
  | nil => rfl
  | cons c cells ih =>
    obtain ⟨b, v⟩ := c
    rw [List.forall_mem_cons] at haddr
    obtain ⟨hb, haddr⟩ := haddr
    rw [writeCells_cons, ih (Memory.wf_write hwf _ _) haddr, List.reverse_cons, List.find?_append]
    cases cells.reverse.find? fun c => c.1 == (a : Int) with
    | some c => rfl
    | none =>
      rw [Memory.read_write hwf]
      by_cases hab : b = (a : Int)
      · simp [hab]
      · have hne : a ≠ b.toNat := by omega
        simp [hab, hne]

theorem wf_writeCells {cells : List (Int × Int)} {m : Memory} (hwf : m.wf = true) :
    (writeCells m cells).wf = true :=
  List.foldlRecOn (motive := fun m : Memory => m.wf = true) cells _ hwf fun _ hm _ _ => Memory.wf_write hm _ _

theorem bounded_writeCells {p : Params} {cells : List (Int × Int)} {m : Memory} (hm : m.bounded p = true)
    (hcells : ∀ c ∈ cells, LegalPreload p c) : (writeCells m cells).bounded p = true := by
  refine List.foldlRecOn (motive := fun m : Memory => m.bounded p = true) cells _ hm fun m hm c hc => ?_
  obtain ⟨haddr, hvalue⟩ := hcells c hc
  refine Memory.bounded_write hm ?_ hvalue
  rwa [Int.toNat_of_nonneg ((holdsAddr_iff _ _).1 haddr).1]

/-- Settles O3: the three conditions are the launch's own tests, and what a launched cell reads is its last preload. -/
theorem launchSucceedsExactlyOnLegalStates : Obligations.LaunchSucceedsExactlyOnLegalStates := by
  refine fun p prog cells => ⟨?_, fun s hlaunch => ?_⟩
  · simp only [launch_eq_next_iff, exists_and_left, exists_eq, and_true]
    rfl
  · obtain ⟨⟨-, -, hcells⟩, rfl⟩ := launch_eq_next_iff.1 hlaunch
    refine ⟨rfl, fun a => read_writeCells Memory.wf_nil (fun c hc => ?_) a⟩
    exact ((holdsAddr_iff _ _).1 (hcells c hc).1).1

/-! ### Where every run begins -/

/-- A freshly reset machine with legal parameters, a Program that fits and any Memory of theirs meets the invariant. -/
theorem inv_freshWith_mem {p : Params} {prog : List Byte} {m : Memory} (hp : p.valid = true)
    (hprog : prog.length < 2 ^ p.pcBits) (hwf : m.wf = true) (hbounded : m.bounded p = true) :
    State.Inv { State.freshWith p prog with mem := m } := by
  obtain ⟨hpc, hhalt, hcause⟩ : ProgressInv { State.freshWith p prog with mem := m } :=
    progressInv_of_start rfl rfl rfl
  exact ⟨hp, hprog, hwf, hbounded, hpc, hhalt, hcause⟩

/-- Settles O4: a launch state is freshly reset, and legal preloads make a canonical Memory in range. -/
theorem launchStateMeetsInvariant : Obligations.LaunchStateMeetsInvariant := by
  intro p prog cells s hlaunch
  obtain ⟨⟨hp, hprog, hcells⟩, rfl⟩ := launch_eq_next_iff.1 hlaunch
  exact ⟨inv_freshWith_mem hp hprog (wf_writeCells Memory.wf_nil) (bounded_writeCells rfl hcells), .start, rfl, rfl⟩

/-- Settles O2: the reset state is the freshly reset machine of the default parameters, with no Program and no cell. -/
theorem resetStateMeetsInvariant : Obligations.ResetStateMeetsInvariant :=
  ⟨inv_freshWith_mem (p := Params.standard) (prog := []) (by decide) (by decide) Memory.wf_nil rfl, .start, rfl⟩

/-! ### Reads after the run -/

@[simp] theorem length_cellsFrom (s : State) (start count : Nat) : (s.cellsFrom start count).length = count := by
  induction count generalizing start with
  | zero => rfl
  | succ count ih => rw [State.cellsFrom, List.length_cons, ih]

/-- Entry `k` of a dump is the cell `k` places above its start. -/
theorem getElem?_cellsFrom {s : State} {start count k : Nat} (hk : k < count) :
    (s.cellsFrom start count)[k]? = some (start + k, s.cell (start + k)) := by
  induction count generalizing start k with
  | zero => cases hk
  | succ count ih =>
    rw [State.cellsFrom]
    cases k with
    | zero => rfl
    | succ k =>
      rw [List.getElem?_cons_succ, ih (Nat.lt_of_succ_lt_succ hk), Nat.add_right_comm]
      rfl

theorem hostRead_running {s : State} (hrun : s.status = .run) (a : Int) : s.hostRead a = .error .hostDuringRun :=
  if_pos hrun

theorem hostRead_stopped {s : State} {a : Nat} (hstopped : s.status ≠ .run) (ha : a < s.params.memCells) :
    s.hostRead a = .ok (s.cell a) := by
  have haddr : s.params.holdsAddr a = true := (holdsAddr_iff _ _).2 (by omega)
  simp [State.hostRead, hstopped, haddr]

theorem dump_running {s : State} (hrun : s.status = .run) (start stop : Nat) :
    s.dump start stop = .error .hostDuringRun :=
  if_pos hrun

theorem dump_stopped {s : State} {start stop : Nat} (hstopped : s.status ≠ .run) (hle : start ≤ stop)
    (hstop : stop < s.params.memCells) : s.dump start stop = .ok (s.cellsFrom start (stop + 1 - start)) := by
  rw [State.dump, if_neg hstopped, if_neg (by omega)]

/-- Settles O5: the status test of each read, and the dump's list entry by entry. -/
theorem dumpListsRangeAscendingAfterTheRun : Obligations.DumpListsRangeAscendingAfterTheRun := by
  refine fun s start stop => ⟨fun hrun => ⟨hostRead_running hrun, dump_running hrun start stop⟩,
    fun hstopped hle hstop => ⟨hostRead_stopped hstopped hstop, _, dump_stopped hstopped hle hstop,
      length_cellsFrom s _ _, fun k hk => ?_⟩⟩
  rw [length_cellsFrom] at hk
  exact getElem?_cellsFrom hk

end Sys2Proof.Proofs
end

section
/-! PROOFS. The frame of every instruction, and what a step does with it (41_data_movement.md section 4,
60_exceptions.md R132, 40_sequencer_decoder.md R90). -/

namespace Sys2Proof.Proofs

open Sys2Proof.Machine

/-- Settles O27: an instruction either writes the one cell its store field names or enters a fault. -/
theorem everyInstructionKeepsItsFrame : Obligations.EveryInstructionKeepsItsFrame := by
  intro i s t hwf hx
  rcases exec_cases i s with ⟨v, -, -, h⟩ | ⟨e, h⟩ <;> cases h.symm.trans hx
  case inl =>
    refine ⟨rfl, rfl, rfl, ?_, .inl ⟨rfl, rfl, rfl, Memory.wf_write hwf _ _⟩⟩
    rintro a rfl b hb
    exact cell_store_other hwf v hb
  case inr => exact ⟨rfl, rfl, rfl, fun _ _ _ _ => rfl, .inr ⟨rfl, rfl⟩⟩

/-- No instruction moves `pc`: that is the sequencer's (40_sequencer_decoder.md R90). -/
theorem exec_keeps_pc {i : Instr} {s t : State} (hx : exec i s = .next t) : t.pc = s.pc := by
  rcases exec_cases i s with ⟨v, -, -, h⟩ | ⟨e, h⟩ <;> cases h.symm.trans hx
  case inl => rfl
  case inr => exact takeFault_pc s e

/-- Where the bytes at an offset are the group of a well-formed instruction, it decodes there. -/
theorem decode_of_groupBytes_eq_encode {prog : List Byte} {o : Nat} {i : Instr} (hwf : i.wf = true)
    (hg : groupBytes prog o i.byteLength = encode i) : decode prog o = .ok (i, i.byteLength) := by
  have hlen : i.byteLength = 5 ∨ i.byteLength = 6 := byteLength_cases i.opcode
  have hinside : o + i.byteLength ≤ prog.length := by
    have := congrArg List.length hg
    rw [groupBytes, List.length_take, List.length_drop, length_encode] at this
    omega
  have hprog : prog.take o ++ encode i ++ prog.drop (o + i.byteLength) = prog := by
    rw [← hg, groupBytes, List.append_assoc, ← List.drop_drop, List.take_append_drop, List.take_append_drop]
  have hd := decodeOfEncodeMasksOperands.1 i (prog.take o) (prog.drop (o + i.byteLength))
  rwa [hprog, List.length_take_of_le (by omega), maskFields_of_wf hwf] at hd

/-- Settles O18: the group decodes to its instruction, so the step executes it, and the sequencer moves `pc` over the
group only where the machine still runs. -/
theorem groupAtPcIsExecuted : Obligations.GroupAtPcIsExecuted := by
  intro s t i hrun hwf hg hx
  have hd := decode_of_groupBytes_eq_encode hwf hg
  split
  · next ht => rw [step_completed hx ht hrun hd, State.advance, exec_keeps_pc hx]
  · next ht => rw [step_decoded hrun hd, hx, retire_next, if_pos ((stopped_iff t).2 ht)]

end Sys2Proof.Proofs
end

section
/-! PROOFS. No step reads `cause` or `finfo` (10_state.md R19, R21). -/

namespace Sys2Proof.Proofs

open Sys2Proof.Machine

/-- A state with another fault record. -/
def withRecord (c : Cause) (f : Int) (s : State) : State := { s with cause := c, finfo := f }

/-- The two states differ in their fault record at most. -/
def SameButRecord (t' t : State) : Prop := withRecord t.cause t.finfo t' = t

theorem checkedRead_withRecord (c : Cause) (f : Int) (s : State) (a : Int) :
    checkedRead (withRecord c f s) a = checkedRead s a := rfl

theorem checkedWrite_withRecord (c : Cause) (f : Int) (s : State) (a v : Int) :
    checkedWrite (withRecord c f s) a v = withRecord c f <$> checkedWrite s a v := by
  rw [checkedWrite_eq_check, checkedWrite_eq_check]
  change (addressCheck s a).elim _ _ = _
  cases addressCheck s a <;> rfl

/-- A path that begins with an access not touched by the record, and carries the record through the rest, carries it to
the end. -/
theorem bind_withRecord {α : Type} {c : Cause} {f : Int} {m : Except Trap α} {k k' : α → Except Trap State}
    (h : ∀ v, k' v = withRecord c f <$> k v) : m >>= k' = withRecord c f <$> (m >>= k) := by
  rw [map_bind]
  exact bind_congr h

/-- The path of an instruction goes through the same reads and checks with another fault record, and carries that record
to its end. -/
theorem exec_path_withRecord (i : Instr) (s : State) (c : Cause) (f : Int) :
    ∃ m, exec i s = settle s m ∧ exec i (withRecord c f s) = settle (withRecord c f s) (withRecord c f <$> m) := by
  have hwrite := checkedWrite_withRecord c f s
  cases i with
  | load const addr => exact ⟨_, rfl, congrArg (settle (withRecord c f s)) (hwrite _ _)⟩
  | write src dst =>
    exact ⟨_, rfl, congrArg (settle (withRecord c f s)) (bind_withRecord fun _ => hwrite _ _)⟩
  | read p d o =>
    exact ⟨_, rfl, congrArg (settle (withRecord c f s)) (bind_withRecord fun _ => bind_withRecord fun _ => hwrite _ _)⟩
  | sqrt d p =>
    exact ⟨_, rfl, congrArg (settle (withRecord c f s))
      (bind_withRecord fun _ => bind_withRecord fun _ => bind_withRecord fun _ => hwrite _ _)⟩

/-- With another fault record an instruction does the same to everything else. -/
theorem exec_withRecord {i : Instr} {s t : State} (c : Cause) (f : Int) (hx : exec i s = .next t) :
    ∃ t', exec i (withRecord c f s) = .next t' ∧ SameButRecord t' t := by
  obtain ⟨m, hm, hm'⟩ := exec_path_withRecord i s c f
  rw [hm] at hx
  cases m with
  | ok u =>
    cases hx
    exact ⟨_, hm', rfl⟩
  | error e =>
    cases hx
    exact ⟨_, hm', rfl⟩

/-- The sequencer's advance goes by `status`, so it does the same to states that differ in the fault record. -/
theorem retire_sameButRecord {t' t : State} (len : Nat) (h : SameButRecord t' t) :
    SameButRecord (if t'.stopped then t' else t'.advance len) (if t.stopped then t else t.advance len) := by
  have hstopped : t'.stopped = t.stopped := by rw [← h]; rfl
  rw [hstopped]
  split
  · exact h
  · exact congrArg (State.advance · len) h

/-- A decoded instruction's step with another fault record. -/
theorem step_decoded_withRecord {i : Instr} {len : Nat} {s t u : State} (c : Cause) (f : Int) (hrun : s.status = .run)
    (hd : decode s.prog s.pc = .ok (i, len)) (hx : exec i s = .next u) (hstep : step s = .next t) :
    ∃ t', step (withRecord c f s) = .next t' ∧ SameButRecord t' t := by
  obtain ⟨u', hx', hsame⟩ := exec_withRecord c f hx
  rw [step_decoded hrun hd, hx, retire_next] at hstep
  cases hstep
  refine ⟨_, ?_, retire_sameButRecord len hsame⟩
  rw [step_decoded (s := withRecord c f s) hrun hd, hx', retire_next]

/-- Settles O43: the branch a step takes goes by `status`, `pc` and the Program, and an instruction's path by Memory and
the parameters. -/
theorem faultRecordIsNeverRead : Obligations.FaultRecordIsNeverRead := by
  intro s t c f hstep
  change ∃ t', step (withRecord c f s) = .next t' ∧ SameButRecord t' t
  rcases step_cases s with ⟨hstopped, h⟩ | ⟨hrun, hend, h⟩ | ⟨e, hrun, hpc, hd, h⟩ | ⟨i, len, e, hrun, hd, hx, -⟩ |
    ⟨i, len, v, hrun, hd, -, -, hx, -⟩
  · cases h.symm.trans hstep
    exact ⟨_, step_stopped (s := withRecord c f s) hstopped, rfl⟩
  · cases h.symm.trans hstep
    exact ⟨_, step_atEnd (s := withRecord c f s) hrun hend, rfl⟩
  · cases h.symm.trans hstep
    exact ⟨_, step_decodeFault (s := withRecord c f s) hrun hpc hd, rfl⟩
  · exact step_decoded_withRecord c f hrun hd hx hstep
  · exact step_decoded_withRecord c f hrun hd hx hstep

end Sys2Proof.Proofs
end

section
/-! PROOFS. The digit-by-digit square root (42_sqrt_alu.md R115). -/

namespace Sys2Proof.Proofs

open Sys2Proof.Machine

/-- The loop with `k` iterations left completes a root `q`: `v` is what `q * q` leaves of the operand, the result
register holds `q * 2^k`, and the root sought lies below `q + 2^k`. -/
theorem digitSqrtLoop_eq_sqrt {k q v : Nat} (hlt : q * q + v < (q + 2 ^ k) * (q + 2 ^ k)) :
    digitSqrtLoop k v (q * 2 ^ k) = Nat.sqrt (q * q + v) := by
  induction k generalizing q v with
  | zero =>
    rw [digitSqrtLoop, Nat.pow_zero, Nat.mul_one]
    exact Nat.eq_sqrt.2 ⟨Nat.le_add_right _ _, hlt⟩
  | succ k ih =>
    have hhalf : (q * 2 ^ (k + 1)) >>> 1 = q * 2 ^ k := by
      rw [Nat.shiftRight_one, Nat.pow_succ, ← Nat.mul_assoc, Nat.mul_div_cancel _ Nat.two_pos]
    have hbit : (4 : Nat) ^ k = 2 ^ k * 2 ^ k := by rw [← Nat.mul_pow]
    have hsquare : (q + 2 ^ k) * (q + 2 ^ k) = q * q + (q * 2 ^ (k + 1) + 4 ^ k) := by rw [hbit]; ring
    have hdouble : q + 2 ^ (k + 1) = q + 2 ^ k + 2 ^ k := by ring
    rw [digitSqrtLoop, hhalf]
    split
    · next hfits =>
      have hleft : q * q + v = (q + 2 ^ k) * (q + 2 ^ k) + (v - (q * 2 ^ (k + 1) + 4 ^ k)) := by omega
      rw [hdouble, hleft] at hlt
      rw [hbit, ← Nat.add_mul, ← hbit, ih hlt, ← hleft]
    · next hfits => exact ih (by omega)

/-- Settles O33: the loop starts from root 0 with one iteration for each base-4 digit of a cell value. -/
theorem digitAlgorithmComputesIsqrt : Obligations.DigitAlgorithmComputesIsqrt := by
  intro cellBits v hbits hv
  have hdigits : v < 2 ^ ((cellBits - 2) / 2 + 1) * 2 ^ ((cellBits - 2) / 2 + 1) := by
    rw [← Nat.pow_add]
    exact hv.trans_le (Nat.pow_le_pow_right (by decide) (by omega))
  have hloop := digitSqrtLoop_eq_sqrt (k := (cellBits - 2) / 2 + 1) (q := 0) (v := v) (by simpa using hdigits)
  rw [isqrt_eq_sqrt, digitSqrt]
  simpa using hloop

end Sys2Proof.Proofs
end
